-- ==== Sys2Proof/Word.lean ====
section
/-! DEFINITION. The word types of the hardware (R7, R22): a byte is 8 bits, a word is 16 bits, every register value is
unsigned and lies in its width because its type has that width. -/

namespace Sys2Proof

/-- A memory cell, a general register or the stack pointer: `DATA_WIDTH` = 8 bits (R6). -/
abbrev Byte := BitVec 8

/-- An address or the program counter: `ADDR_WIDTH` = 16 bits (R6). -/
abbrev Word := BitVec 16

end Sys2Proof
end

