-- ==== Sys2Proof/Machine/State.lean ====
section
/-! DEFINITION. The state of the machine (R10, R20), the two output streams kept beside it, and its value after reset
(R23). Plain data. -/

namespace Sys2Proof.Machine

/-- The memory (R30), held sparsely: the cells that do not hold what an unlisted cell reads as, at strictly rising
addresses (`Memory.wf` of Machine/Ops.lean; log 12). -/
abbrev Memory := List Host.Cell

/-- The seven flags: independent booleans with no bit position and no eighth bit (R15, R17; log 20). -/
structure Flags where
  /-- carry -/
  c : Bool
  /-- zero -/
  z : Bool
  /-- interrupt-disable: masks nothing (R16) -/
  i : Bool
  /-- decimal: selects nothing (R16) -/
  d : Bool
  /-- break -/
  b : Bool
  /-- overflow -/
  v : Bool
  /-- negative -/
  n : Bool
  deriving DecidableEq, Repr

/-- The name of a flag, for the host's access to one of them (R17, R24). -/
inductive Flag where
  | c | z | i | d | b | v | n
  deriving DecidableEq, Repr

/-- One cycle of the engine as the memory port shows it: a byte read, a byte written, or an internal cycle that makes no
access (R31, R37, R76). -/
inductive BusEvent where
  | read (addr : Word) (value : Byte)
  | write (addr : Word) (value : Byte)
  | internal
  deriving DecidableEq, Repr

/-- Everything the spec gives the machine. `diag` and `trace` are output streams: no rule reads them. -/
structure State where
  /-- `PC` (R13). -/
  pc : Word
  /-- `SP` (R12). -/
  sp : Byte
  /-- `A`, the accumulator (R11). -/
  a : Byte
  /-- `X` (R11). -/
  x : Byte
  /-- `Y` (R11): no instruction reads or writes it. -/
  y : Byte
  /-- `C`, `Z`, `I`, `D`, `B`, `V`, `N` (R15). -/
  flags : Flags
  /-- The cycle budget left, a mathematical integer (R18). It means something only during an `execute` (R102). -/
  remaining : Int
  /-- The argument of the `execute` that runs (R18). -/
  requested : Int
  /-- The 65,536 cells (R20, R30). -/
  mem : Memory
  /-- The bytes sent to the diagnostics sink, oldest first (R154; log 10). -/
  diag : List Byte
  /-- The model's own record of the engine's bus transactions and internal cycles, oldest first (R38; log 11). -/
  trace : List BusEvent
  deriving DecidableEq, Repr

/-- The hardware raises no fault (R140), so no fault exists: safe, since no run is cut short by one (log 18). -/
inductive Fault where
  deriving DecidableEq, Repr

/-- Why the model itself would give no meaning. The hardware's rules give no ground for one (R156; log 18). -/
inductive Refusal where
  /-- Raised only by an arm of `exec` whose instruction has no meaning yet. There is no such arm, so nothing raises it.
  Safe. -/
  | notModelled (mnemonic : String)
  deriving DecidableEq, Repr

/-- The state right after reset (R23): `PC` at 0xFFFC, every other register, every flag and every memory cell 0.
The spec gives the budget counter no value outside `execute`; it is 0 here (DESIGN CHOICE, log 8). The two streams are
empty (DESIGN CHOICE, logs 10 and 11). -/
def State.reset : State where
  pc := 0xFFFC#16
  sp := 0x00#8
  a := 0x00#8
  x := 0x00#8
  y := 0x00#8
  flags := ⟨false, false, false, false, false, false, false⟩
  remaining := 0
  requested := 0
  mem := []
  diag := []
  trace := []

end Sys2Proof.Machine
end

