-- ==== Sys2Proof/Machine/Flags.lean ====
section
/-! DEFINITION. The flag computations: the one rule by which instructions write flags (R110), and the access to one
flag by name (R17, R24). -/

namespace Sys2Proof.Machine

/-- The flags after `v` was loaded into `A` (R110): `Z` and `N` are both written, the other five keep their values. -/
def Flags.afterLoad (f : Flags) (v : Byte) : Flags := { f with z := v == 0x00#8, n := v.getLsbD 7 }

/-- `SetZN(v)` (R110). -/
def setZN (v : Byte) (s : State) : State := { s with flags := s.flags.afterLoad v }

/-- The value of one flag. -/
def Flags.get (f : Flags) : Flag → Bool
  | .c => f.c
  | .z => f.z
  | .i => f.i
  | .d => f.d
  | .b => f.b
  | .v => f.v
  | .n => f.n

/-- The flags with one of them replaced. -/
def Flags.set (f : Flags) (name : Flag) (bit : Bool) : Flags :=
  match name with
  | .c => { f with c := bit }
  | .z => { f with z := bit }
  | .i => { f with i := bit }
  | .d => { f with d := bit }
  | .b => { f with b := bit }
  | .v => { f with v := bit }
  | .n => { f with n := bit }

end Sys2Proof.Machine
end

