-- ==== Sys2Proof/Machine/Bits.lean ====
section
/-! DEFINITION. The bit-field, extension and byte-order helpers (R7, R35, R52). -/

namespace Sys2Proof

/-- `zext_16(b)` (R7). -/
def zext16 (b : Byte) : Word := b.setWidth 16

/-- `w[7:0]` (R7). -/
def lowByte (w : Word) : Byte := w.extractLsb' 0 8

/-- `w[15:8]` (R7). -/
def highByte (w : Word) : Byte := w.extractLsb' 8 8

/-- `{hi, lo}`, the source's `low | (high << 8)` (R7, R52, R73). -/
def wordOf (lo hi : Byte) : Word := zext16 lo ||| (zext16 hi <<< 8)

end Sys2Proof
end

