-- ==== Sys2Proof/Machine/Ops.lean ====
section
/-! DEFINITION. The named operations over memory, registers and the cycle budget: the raw memory port (R31) and the
charging primitives every instruction is written in (R70 to R77). There is no operation that takes an exception and none
that returns from one: the hardware has no trap entry and no trap return (R140, R146, R147;
log 17). -/

namespace Sys2Proof.Machine

/-- What a cell that nothing has written reads as: memory is zero from its allocation and after every reset (R23, R25,
R45). -/
def unlistedByte : Byte := 0x00#8

/-- The canonical form of a memory: addresses strictly rising and below `MEM_SIZE` = 65,536 (R30), no listed cell equal
to an unlisted one. -/
abbrev Memory.wf (m : Memory) : Prop :=
  m.Pairwise (fun p q => p.1 < q.1) ∧ ∀ p ∈ m, p.1 < 65536 ∧ p.2 ≠ unlistedByte

/-- The byte at an address. -/
def Memory.read : Memory → Nat → Byte
  | [], _ => unlistedByte
  | (k, v) :: m, a => if a = k then v else Memory.read m a

/-- The memory with one byte replaced; keeps the canonical form. -/
def Memory.write : Memory → Nat → Byte → Memory
  | [], a, v => if v = unlistedByte then [] else [(a, v)]
  | (k, w) :: m, a, v =>
    if a < k then
      if v = unlistedByte then (k, w) :: m else (a, v) :: (k, w) :: m
    else if a = k then
      if v = unlistedByte then m else (a, v) :: m
    else (k, w) :: Memory.write m a v

/-- `MemRead(addr, 1)`: the raw port, uncharged, cannot fail (R31). -/
def memRead (addr : Word) (s : State) : Byte := s.mem.read addr.toNat

/-- `MemWrite(addr, 1, v)`: the raw port, uncharged, changes exactly one cell (R31). -/
def memWrite (addr : Word) (v : Byte) (s : State) : State := { s with mem := s.mem.write addr.toNat v }

/-- `Charge(n)`: the one operation that changes the cycle budget; no charge is negative (R70). -/
def charge (n : Nat) (s : State) : State := { s with remaining := s.remaining - n }

/-- Adds one cycle to the record of bus transactions (log 11). -/
def record (e : BusEvent) (s : State) : State := { s with trace := s.trace ++ [e] }

/-- `PC <- v`. -/
def setPc (v : Word) (s : State) : State := { s with pc := v }

/-- `SP <- v`. -/
def setSp (v : Byte) (s : State) : State := { s with sp := v }

/-- `A <- v`. -/
def setA (v : Byte) (s : State) : State := { s with a := v }

/-- `FetchByte()` (R72): the read uses the `PC` before the increment; the increment is modulo 65,536. -/
def fetchByte (s : State) : Byte × State :=
  let b := memRead s.pc s
  (b, charge 1 (record (.read s.pc b) (setPc (s.pc + 1) s)))

/-- `FetchWord()` (R73): two `FetchByte()`, low byte first. -/
def fetchWord (s : State) : Word × State :=
  let (lo, s1) := fetchByte s
  let (hi, s2) := fetchByte s1
  (wordOf lo hi, s2)

/-- `ReadByte(addr)` (R74). -/
def readByte (addr : Word) (s : State) : Byte × State :=
  let b := memRead addr s
  (b, charge 1 (record (.read addr b) s))

/-- `WriteWord(addr, w)` (R75): low byte at `addr`, high byte at `(addr + 1) mod 65536`, low byte first, 2 cycles.
DESIGN CHOICE of the spec (decisions D3, D4; log 4). -/
def writeWord (addr : Word) (w : Word) (s : State) : State :=
  let s1 := record (.write addr (lowByte w)) (memWrite addr (lowByte w) s)
  let s2 := record (.write (addr + 1) (highByte w)) (memWrite (addr + 1) (highByte w) s1)
  charge 2 s2

/-- `InternalCycle()` (R76): one cycle with no memory access (log 16). -/
def internalCycle (s : State) : State := charge 1 (record .internal s)

/-- `Report(UnknownOpcode(b))` (R154): appends the byte to the diagnostics sink; nothing can answer or refuse. -/
def report (b : Byte) (s : State) : State := { s with diag := s.diag ++ [b] }

/-- `consumed = requested - remaining` (R77). -/
def consumed (s : State) : Int := s.requested - s.remaining

end Sys2Proof.Machine
end

