-- ==== Sys2Proof/Machine/Operands.lean ====
section
/-! DEFINITION. The addressing-mode resolver (R85 to R92). Each mode's effective address stands once; the part of a
resolver after its operand bytes are fetched is what an instruction's meaning uses (the step has fetched them, log 7),
and the whole resolver of the spec, fetch included, is built on it. Immediate and Absolute need nothing after the fetch. -/

namespace Sys2Proof.Machine

/-- The effective address of Zero Page (R87): a high byte of zero. -/
def zeroPageAddr (zp : Byte) : Word := zext16 zp

/-- The effective address of Zero Page, X-indexed (R88, R90): the sum is cut to 8 bits before it is widened. -/
def zeroPageXAddr (zp x : Byte) : Word := zext16 (zp + x)

/-- Zero Page after the operand fetch (R87): one read. -/
def operandZeroPage (zp : Byte) (s : State) : Byte × State := readByte (zeroPageAddr zp) s

/-- Zero Page, X-indexed after the operand fetch (R88): the index-add cycle, then one read. -/
def operandZeroPageX (zp : Byte) (s : State) : Byte × State :=
  readByte (zeroPageXAddr zp s.x) (internalCycle s)

/-- `ResolveImmediate()` (R86). -/
def resolveImmediate (s : State) : Byte × State := fetchByte s

/-- `ResolveZeroPage()` (R87). -/
def resolveZeroPage (s : State) : Byte × State :=
  let (zp, s1) := fetchByte s
  operandZeroPage zp s1

/-- `ResolveZeroPageX()` (R88). -/
def resolveZeroPageX (s : State) : Byte × State :=
  let (zp, s1) := fetchByte s
  operandZeroPageX zp s1

/-- `ResolveAbsolute()` (R89): a target address, no data read. -/
def resolveAbsolute (s : State) : Word × State := fetchWord s

end Sys2Proof.Machine
end

