-- ==== Sys2Proof/Machine/Load.lean ====
section
/-! DEFINITION. The three load instructions (R110 to R114). Each meaning starts where the instruction's bytes are
fetched: `PC` is past them and their cycles are charged. -/

namespace Sys2Proof.Machine

/-- `A <- v; SetZN(v)`, the effect the three forms share (R110). -/
def loadA (v : Byte) (s : State) : State := setZN v (setA v s)

/-- LDA immediate (R111). -/
def execLdaIm (imm : Byte) (s : State) : Host.Outcome State Fault Refusal := .next (loadA imm s)

/-- LDA zero page (R112). -/
def execLdaZp (zp : Byte) (s : State) : Host.Outcome State Fault Refusal :=
  let (v, s1) := operandZeroPage zp s
  .next (loadA v s1)

/-- LDA zero page, X-indexed (R113). -/
def execLdaZpx (zp : Byte) (s : State) : Host.Outcome State Fault Refusal :=
  let (v, s1) := operandZeroPageX zp s
  .next (loadA v s1)

end Sys2Proof.Machine
end

