-- ==== Sys2Proof/Config.lean ====
section
/-! DEFINITION. The parameters of the hardware that the spec wants kept as configuration (R6, R53, R121, R122), and the
one value it leaves open. The values this hardware takes are `Config.hw` in Machine/Params.lean. -/

namespace Sys2Proof

/-- The implementation parameters of R6 that are not widths: the four opcode bytes, `STACK_BASE` and `SP_DELTA`.
A configuration is fixed for a machine; it is no state (R19). -/
structure Config where
  /-- `OPC_LDA_IM` -/
  opcLdaIm : Byte
  /-- `OPC_LDA_ZP` -/
  opcLdaZp : Byte
  /-- `OPC_LDA_ZPX` -/
  opcLdaZpx : Byte
  /-- `OPC_JSR` -/
  opcJsr : Byte
  /-- `STACK_BASE`: the value added to SP to form the address JSR writes to (R121). -/
  stackBase : Word
  /-- `SP_DELTA`: the value JSR adds to SP (R122). -/
  spDelta : Byte
  deriving DecidableEq, Repr

/-- The open value of `SP_DELTA` (R122, decision D5: OPEN). It has no body: whatever is proved holds for every value it
could have. Assumption log 3. -/
opaque Config.openSpDelta : Byte

/-- The opcode bytes that have an entry in the opcode table, in the table's order (R53). -/
def Config.opcodes (c : Config) : List Byte := [c.opcLdaIm, c.opcLdaZp, c.opcLdaZpx, c.opcJsr]

/-- What the source fixes about the four opcode values (R54): (a) they are pairwise different, (b) none of them is 0x01.
This is what "validate the opcode table" of the reset contract could check (R163). -/
abbrev Config.valid (c : Config) : Prop := c.opcodes.Nodup ∧ (0x01#8) ∉ c.opcodes

end Sys2Proof
end

