-- ==== Sys2Proof/Machine/Params.lean ====
section
/-! DEFINITION. The parameter values of this hardware (R6). They stand here, apart from the type, because they are the
spec's decisions and not the source's words. -/

namespace Sys2Proof

/-- PRESUMED (log 1): the four opcode bytes are the standard 6502 encodings (R53, decision D1).
DESIGN CHOICE (log 2): `STACK_BASE` = 0x0000 (R121, decision D2).
`SP_DELTA` is open (R122, decision D5; log 3). -/
def Config.hw : Config where
  opcLdaIm := 0xA9#8
  opcLdaZp := 0xA5#8
  opcLdaZpx := 0xB5#8
  opcJsr := 0x20#8
  stackBase := 0x0000#16
  spDelta := Config.openSpDelta

end Sys2Proof
end

