-- ==== Sys2Proof/Machine/Subroutine.lean ====
section
/-! DEFINITION. Jump-to-Subroutine (R120 to R125), over a configuration because `STACK_BASE` and `SP_DELTA` are
parameters (R121, R122). -/

namespace Sys2Proof.Machine

/-- `StackAddr()` (R121): the address of the return-address write, from the `SP` before it is stepped. -/
def stackAddr (c : Config) (s : State) : Word := c.stackBase + zext16 s.sp

/-- The return address JSR saves (R120): `(PC - 1) mod 65536` from the `PC` after the word fetch. -/
def returnAddr (s : State) : Word := s.pc - 1

/-- JSR after its target is fetched, in the order of R123: write, step `SP`, set `PC`, internal cycle (log 5). -/
def jsr (c : Config) (target : Word) (s : State) : State :=
  let s1 := writeWord (stackAddr c s) (returnAddr s) s
  let s2 := setSp (s1.sp + c.spDelta) s1
  internalCycle (setPc target s2)

/-- JSR absolute (R120). -/
def execJsr (target : Word) (s : State) : Host.Outcome State Fault Refusal := .next (jsr Config.hw target s)

end Sys2Proof.Machine
end

