-- ==== Sys2Proof/Machine/Unknown.lean ====
section
/-! DEFINITION. The unknown-opcode outcome (R130 to R132): a defined behaviour, not a fault. -/

namespace Sys2Proof.Machine

/-- Unknown opcode (R130): reports the byte; no register, flag or memory change and no further charge. -/
def execUnknown (opcode : Byte) (s : State) : Host.Outcome State Fault Refusal := .next (report opcode s)

end Sys2Proof.Machine
end

