-- ==== Sys2Proof/Syntax.lean ====
section
/-! DEFINITION. The instructions (every row of spec/opcode_table.json), the five formats (R51) and the shape of an
opcode-table entry (R55). -/

namespace Sys2Proof

/-- The five formats of R51. The last four are also the four addressing modes of R85; `unk` has no operand. -/
inductive Format where
  /-- Unknown opcode: the opcode byte alone. -/
  | unk
  /-- Immediate: one operand byte, the operand itself. -/
  | imm
  /-- Zero Page: one operand byte, the low byte of the operand's address. -/
  | zp
  /-- Zero Page, X-indexed: one operand byte, the base. -/
  | zpx
  /-- Absolute: two operand bytes, the target address, low byte first. -/
  | abs
  deriving DecidableEq, Repr

/-- The instructions, one constructor per mnemonic of the opcode table: the four defined ones (R53) and the
unknown-opcode outcome, which 252 rows share (R56, R130). -/
inductive Instr where
  /-- LDA immediate (R111). -/
  | ldaIm (imm : Byte)
  /-- LDA zero page (R112). -/
  | ldaZp (zp : Byte)
  /-- LDA zero page, X-indexed (R113). -/
  | ldaZpx (zp : Byte)
  /-- JSR absolute (R120), with its assembled target address (R52). -/
  | jsr (target : Word)
  /-- An opcode byte with no entry in the opcode table (R130). -/
  | unknown (opcode : Byte)
  deriving DecidableEq, Repr

/-- An entry of the opcode table (R55). Its handler is the one its format selects; no two entries share a format. -/
structure OpcodeRow where
  opcode : Byte
  mnemonic : String
  format : Format
  /-- The base cycle cost: a description of the charges the primitives make, never a charge of its own (R55; log 28). -/
  baseCycles : Nat
  deriving DecidableEq, Repr

/-- Why a list of bytes does not hold a whole instruction. No opcode and no operand value is ever refused (R57);
the machine, whose fetch never runs out of bytes, meets neither (log 21). -/
inductive DecodeError where
  /-- The list is empty. -/
  | noOpcode
  /-- The list ends before the operand bytes the opcode asks for. -/
  | missingOperand
  deriving DecidableEq, Repr

end Sys2Proof
end

