-- ==== Sys2Proof/WellFormed.lean ====
section
/-! DEFINITION. Which instructions are terms of the hardware: every operand value is legal (R57); an unknown opcode is
one that has no entry in the opcode table (R56). -/

namespace Sys2Proof

/-- The one check: `unknown b` stands only for a byte `b` without a table entry (R56). The
decoder makes no other (log 19). -/
def Instr.wf (c : Config) : Instr → Bool
  | .ldaIm _ => true
  | .ldaZp _ => true
  | .ldaZpx _ => true
  | .jsr _ => true
  | .unknown op => !c.opcodes.contains op

end Sys2Proof
end

