-- ==== Sys2Proof/Decode.lean ====
section
/-! DEFINITION. The opcode table (R53), the decoder over it, total on any bytes, and the encoder. Both take a
configuration, so that a claim can quantify over the opcode values (R53, R54). -/

namespace Sys2Proof

/-- The opcode table (R53): four entries; it is a constant, not state (R19). -/
def opcodeTable (c : Config) : List OpcodeRow :=
  [ ⟨c.opcLdaIm, "LDA_IM", .imm, 2⟩,
    ⟨c.opcLdaZp, "LDA_ZP", .zp, 3⟩,
    ⟨c.opcLdaZpx, "LDA_ZPX", .zpx, 4⟩,
    ⟨c.opcJsr, "JSR", .abs, 6⟩ ]

/-- The table lookup of the dispatcher (R98): the whole byte is compared (R60). -/
def lookupRow (c : Config) (op : Byte) : Option OpcodeRow :=
  (opcodeTable c).find? fun r => r.opcode == op

/-- The format the opcode byte alone selects (R50); a byte with no entry is an unknown opcode (R56). -/
def formatOf (c : Config) (op : Byte) : Format :=
  match lookupRow c op with
  | some r => r.format
  | none => .unk

/-- The total cycles of one execution, opcode fetch included (R55); 1 for an unknown opcode (R130, R172). -/
def baseCycles (c : Config) (op : Byte) : Nat :=
  match lookupRow c op with
  | some r => r.baseCycles
  | none => 1

/-- The number of operand bytes of a format (R51). -/
def Format.operandBytes : Format → Nat
  | .unk => 0
  | .imm => 1
  | .zp => 1
  | .zpx => 1
  | .abs => 2

/-- The format of an instruction (R51, R53). -/
def Instr.format : Instr → Format
  | .ldaIm _ => .imm
  | .ldaZp _ => .zp
  | .ldaZpx _ => .zpx
  | .jsr _ => .abs
  | .unknown _ => .unk

/-- The length of an instruction in bytes (R50, R51). -/
def Instr.length (i : Instr) : Nat := 1 + i.format.operandBytes

/-- The instruction of a format, from its opcode byte and its operand bytes. The operand bytes come as one 16-bit value
whose low byte is the first of them; a one-byte operand is that low byte (R51, R52). -/
def Format.build (f : Format) (op : Byte) (operand : Word) : Instr :=
  match f with
  | .unk => .unknown op
  | .imm => .ldaIm (lowByte operand)
  | .zp => .ldaZp (lowByte operand)
  | .zpx => .ldaZpx (lowByte operand)
  | .abs => .jsr operand

/-- Takes a format's operand bytes off a list of bytes, as `Format.build` wants them; `none` where the list ends. -/
def Format.takeOperand (f : Format) (bytes : List Byte) : Option (Word × List Byte) :=
  match f.operandBytes, bytes with
  | 0, rest => some (0#16, rest)
  | 1, b :: rest => some (zext16 b, rest)
  | 2, lo :: hi :: rest => some (wordOf lo hi, rest)
  | _, _ => none

/-- The decoder (R57): the instruction at the head of a list of bytes and the bytes after it. -/
def decodeWith (c : Config) : List Byte → Except DecodeError (Instr × List Byte)
  | [] => .error .noOpcode
  | op :: bytes =>
    match (formatOf c op).takeOperand bytes with
    | some (operand, rest) => .ok ((formatOf c op).build op operand, rest)
    | none => .error .missingOperand

/-- The encoder: the bytes of an instruction in address order (R51, R53). -/
def encodeWith (c : Config) : Instr → List Byte
  | .ldaIm imm => [c.opcLdaIm, imm]
  | .ldaZp zp => [c.opcLdaZp, zp]
  | .ldaZpx zp => [c.opcLdaZpx, zp]
  | .jsr target => [c.opcJsr, lowByte target, highByte target]
  | .unknown op => [op]

/-- The decoder of this hardware. -/
def decode (bytes : List Byte) : Except DecodeError (Instr × List Byte) := decodeWith Config.hw bytes

/-- The encoder of this hardware. -/
def encode (i : Instr) : List Byte := encodeWith Config.hw i

/-- A word of `nbits` bits, numbered as spec/opcode_table.json numbers them, as the bytes the hardware stores: the first
byte is bits 7..0. Three bytes, the longest instruction; the bits above `nbits` are 0. -/
def tableWordBytes (nbits w : Nat) : List Byte :=
  [BitVec.ofNat 8 (w % 2 ^ nbits),
   BitVec.ofNat 8 (w % 2 ^ nbits / 256),
   BitVec.ofNat 8 (w % 2 ^ nbits / 65536)]

/-- The instruction the decoder reads from a word of the opcode table. -/
def decodeTableWord (nbits w : Nat) : Option Instr :=
  match decode (tableWordBytes nbits w) with
  | .ok (i, _) => some i
  | .error _ => none

end Sys2Proof
end

