-- ==== Sys2Proof/Machine/Fetch.lean ====
section
/-! DEFINITION. Fetching one whole instruction: the opcode byte, then the operand bytes its format asks for, each by the
charging primitives (R72, R73, R97). All of an instruction's bytes are fetched before any of its effects (R44; log 7). -/

namespace Sys2Proof.Machine

/-- Fetches a format's operand bytes, as `Format.build` wants them (R51). -/
def fetchOperand (f : Format) (s : State) : Word × State :=
  match f.operandBytes with
  | 0 => (0#16, s)
  | 1 =>
    let (b, s1) := fetchByte s
    (zext16 b, s1)
  | _ => fetchWord s

/-- Fetches and decodes the instruction at `PC`; never fails, since every byte decodes (R57). -/
def fetchInstr (c : Config) (s : State) : Instr × State :=
  let (op, s1) := fetchByte s
  let (operand, s2) := fetchOperand (formatOf c op) s1
  ((formatOf c op).build op operand, s2)

/-- Puts bytes into consecutive cells by the raw port, as the host loads a program (R24, R164). -/
def placeBytes (addr : Word) : List Byte → State → State
  | [], s => s
  | b :: bs, s => placeBytes (addr + 1) bs (memWrite addr b s)

end Sys2Proof.Machine
end

