-- ==== Sys2Proof/Machine/Step.lean ====
section
/-! DEFINITION. One step (R97): fetch the instruction at `PC`, run it. A step does not look at the budget; the loop of
`execute` does, between steps (R96; Machine/Commands.lean; log 6). -/

namespace Sys2Proof.Machine

/-- `Step()` (R97). -/
def step (s : State) : Host.Outcome State Fault Refusal :=
  let (i, s1) := fetchInstr Config.hw s
  exec i s1

/-- The state with a word of the opcode table stored where `step` fetches its next instruction (logs 22
and 25). -/
def State.withFetchWord (s : State) (nbits w : Nat) : State := placeBytes s.pc (tableWordBytes nbits w) s

end Sys2Proof.Machine
end

