-- ==== Sys2Proof/Machine/Pseudocode.lean ====
section
/-! DEFINITION. The step as the spec writes it: an opcode fetch and a dispatch on the opcode byte to handlers that fetch
their own operands (R97, R98, R111 to R113, R120, R130). It takes a configuration, so that a claim can quantify over the
parameters of R6; at `Config.hw` it is the same machine as `step`, which is an obligation. -/

namespace Sys2Proof.Machine

/-- `LDA_Immediate()` (R111). -/
def pseudoLdaImmediate (s : State) : State :=
  let (v, s1) := resolveImmediate s
  setZN v (setA v s1)

/-- `LDA_ZeroPage()` (R112). -/
def pseudoLdaZeroPage (s : State) : State :=
  let (v, s1) := resolveZeroPage s
  setZN v (setA v s1)

/-- `LDA_ZeroPageX()` (R113). -/
def pseudoLdaZeroPageX (s : State) : State :=
  let (v, s1) := resolveZeroPageX s
  setZN v (setA v s1)

/-- `JSR_Absolute()` (R120). -/
def pseudoJsrAbsolute (c : Config) (s : State) : State :=
  let (target, s1) := resolveAbsolute s
  let ret := s1.pc - 1
  let s2 := writeWord (stackAddr c s1) ret s1
  let s3 := setSp (s2.sp + c.spDelta) s2
  let s4 := setPc target s3
  internalCycle s4

/-- `Dispatch(opcode)` (R98), with `UnknownOpcode(b)` (R130) as its last case. -/
def dispatchWith (c : Config) (opcode : Byte) (s : State) : State :=
  if opcode = c.opcLdaIm then pseudoLdaImmediate s
  else if opcode = c.opcLdaZp then pseudoLdaZeroPage s
  else if opcode = c.opcLdaZpx then pseudoLdaZeroPageX s
  else if opcode = c.opcJsr then pseudoJsrAbsolute c s
  else report opcode s

/-- `Step()` (R97). -/
def stepWith (c : Config) (s : State) : State :=
  let (opcode, s1) := fetchByte s
  dispatchWith c opcode s1

end Sys2Proof.Machine
end

