-- ==== Sys2Proof/Machine/Commands.lean ====
section
/-! DEFINITION. The block's interfaces (R5): the commands `reset` (R160) and `execute` (R95, R96), and the host's access
to every register, flag and memory cell (R24). A command runs to its end before the next is accepted, so the core is idle
between any two of them and a host access or a reset never falls inside an `execute` (R42, R143, R160; log 14). -/

namespace Sys2Proof.Machine

/-- `reset()` (R160): the reset state whatever the state before (R161); the diagnostics sink, and the model's own bus
record, are left as they are. -/
def resetCommand (s : State) : State := { State.reset with diag := s.diag, trace := s.trace }

/-- A machine before its first reset (R25): registers and flags of any value, those of `arbitrary`; memory all zero
(log 13). -/
def powerUp (arbitrary : State) : State := { arbitrary with mem := [], diag := [], trace := [] }

/-- The loop of R96 over a step function: the budget is tested before every step and nowhere else. `fuel` bounds the
number of steps; since every step charges at least one cycle, a fuel of `requested` is never used up early (log 24). -/
def budgetLoop (stp : State → Host.Outcome State Fault Refusal) : Nat → State → Host.Outcome State Fault Refusal
  | 0, s => .next s
  | fuel + 1, s =>
    if 0 < s.remaining then
      match stp s with
      | .next t => budgetLoop stp fuel t
      | .fault f => .fault f
      | .refused r => .refused r
    else .next s

/-- Sets the budget afresh at the entry of `execute` (R18, R96, R102; log 27). -/
def beginExecute (n : Int) (s : State) : State := { s with requested := n, remaining := n }

/-- `execute(requested_cycles)` (R95, R96). The result `cycles_consumed` is `consumed` of the final state (R103).
A negative request runs no step (R101; log 9); the budget fields keep their last values, which mean nothing (log 8). -/
def execute (n : Int) (s : State) : Host.Outcome State Fault Refusal :=
  budgetLoop step n.toNat (beginExecute n s)

/-- `execute` at any configuration, over the spec's own step. -/
def executeWith (c : Config) (n : Int) (s : State) : Host.Outcome State Fault Refusal :=
  budgetLoop (fun t => .next (stepWith c t)) n.toNat (beginExecute n s)

/-- What the host can ask of the block while it is idle (R5, R24). -/
inductive Command where
  | reset
  | execute (requested : Int)
  | readPc | readSp | readA | readX | readY
  | readFlag (f : Flag)
  | readCell (addr : Word)
  | writePc (v : Word)
  | writeSp (v : Byte)
  | writeA (v : Byte)
  | writeX (v : Byte)
  | writeY (v : Byte)
  | writeFlag (f : Flag) (bit : Bool)
  | writeCell (addr : Word) (v : Byte)
  deriving DecidableEq, Repr

/-- What a command answers: nothing, the cycles consumed, or the value read. -/
inductive Reply where
  | done
  | cyclesConsumed (n : Int)
  | byte (b : Byte)
  | word (w : Word)
  | bit (b : Bool)
  deriving DecidableEq, Repr

/-- One command. Host access charges no cycle and has no other effect (R24; log 15). -/
def Command.run (k : Command) (s : State) : Host.Outcome (State × Reply) Fault Refusal :=
  match k with
  | .reset => .next (resetCommand s, .done)
  | .execute n =>
    match Sys2Proof.Machine.execute n s with
    | .next t => .next (t, .cyclesConsumed (consumed t))
    | .fault f => .fault f
    | .refused r => .refused r
  | .readPc => .next (s, .word s.pc)
  | .readSp => .next (s, .byte s.sp)
  | .readA => .next (s, .byte s.a)
  | .readX => .next (s, .byte s.x)
  | .readY => .next (s, .byte s.y)
  | .readFlag f => .next (s, .bit (s.flags.get f))
  | .readCell addr => .next (s, .byte (memRead addr s))
  | .writePc v => .next (setPc v s, .done)
  | .writeSp v => .next (setSp v s, .done)
  | .writeA v => .next (setA v s, .done)
  | .writeX v => .next ({ s with x := v }, .done)
  | .writeY v => .next ({ s with y := v }, .done)
  | .writeFlag f bit => .next ({ s with flags := s.flags.set f bit }, .done)
  | .writeCell addr v => .next (memWrite addr v s, .done)

/-- A session: commands one after another; state carries over from each to the next (R26, R102; log 27). -/
def runCommands : List Command → State → Host.Outcome (State × List Reply) Fault Refusal
  | [], s => .next (s, [])
  | k :: ks, s =>
    match k.run s with
    | .next (t, r) =>
      match runCommands ks t with
      | .next (u, rs) => .next (u, r :: rs)
      | .fault f => .fault f
      | .refused e => .refused e
    | .fault f => .fault f
    | .refused e => .refused e

end Sys2Proof.Machine
end

