-- ==== Sys2Proof/Safety.lean ====
section
/-! DEFINITION. What counts as a safe state and a safe run, in the terms the claims use. The hardware has no unsafe
outcome of its own (R140, R156), so safety is that the state stays well formed and that a run is never cut short. -/

namespace Sys2Proof.Machine

/-- The invariant of the machine: memory is in its canonical form. Register widths and flag values are kept by their
types (R22). -/
abbrev State.Inv (s : State) : Prop := s.mem.wf

/-- The bounds of the budget at an instruction boundary inside an `execute` (R18, R99). -/
abbrev State.BudgetOk (s : State) : Prop := -5 ≤ s.remaining ∧ s.remaining ≤ s.requested

/-- `Reaches k s t`: `k` steps lead from `s` to `t`, and the budget allowed each of them (R96). -/
def Reaches : Nat → State → State → Prop
  | 0, s, t => s = t
  | k + 1, s, t => 0 < s.remaining ∧ ∃ u, step s = .next u ∧ Reaches k u t

end Sys2Proof.Machine
end

