-- ==== Sys2Proof/Certificates/Slice0/Obligations.lean ====
section
/-! DEFINITION. The statements for the provers. Where a statement says `∃ tr, … trace := tr`, it leaves the model's own
bus record (log 11) unsaid and fixes every other field, memory included, as data; the record has statements of its own.
`Config.hw.opcLdaIm` and the other opcode fields stand for the opcode bytes, so that no such statement rests on their
numeric values (log 1). -/

open Sys2Proof Sys2Proof.Machine

/-! ### Encoding and decoding -/

/-- R50, R51, R53 at every valid choice of the opcode bytes (R54): decoding an encoded well-formed instruction gives it
back, whatever bytes follow it. -/
def Obligations.DecodeOfEncodeGivesTheInstructionBack : Prop :=
  ∀ c : Config, c.valid → ∀ i : Instr, i.wf c = true → ∀ rest : List Byte,
    decodeWith c (encodeWith c i ++ rest) = .ok (i, rest)

/-- The other direction, at every configuration: what is decoded is well formed, has its format's length (R51), and
encodes to the very bytes it was read from, so the decoder drops no bit. -/
def Obligations.EncodeOfDecodeGivesTheBytesBack : Prop :=
  ∀ (c : Config) (bytes : List Byte) (i : Instr) (rest : List Byte), decodeWith c bytes = .ok (i, rest) →
    i.wf c = true ∧ (encodeWith c i).length = i.length ∧ encodeWith c i ++ rest = bytes

/-- R57: every byte value decodes to one of the four entries or to UNK, and every operand value is legal; with R52's
operand assembly. -/
def Obligations.EveryByteDecodesAndEveryOperandIsLegal : Prop :=
  ∀ c : Config, c.valid → ∀ (op lo hi : Byte) (rest : List Byte),
    decodeWith c (c.opcLdaIm :: lo :: rest) = .ok (.ldaIm lo, rest) ∧
    decodeWith c (c.opcLdaZp :: lo :: rest) = .ok (.ldaZp lo, rest) ∧
    decodeWith c (c.opcLdaZpx :: lo :: rest) = .ok (.ldaZpx lo, rest) ∧
    decodeWith c (c.opcJsr :: lo :: hi :: rest) = .ok (.jsr (wordOf lo hi), rest) ∧
    (op ∉ c.opcodes → decodeWith c (op :: rest) = .ok (.unknown op, rest))

/-- R50: the opcode byte alone tells the format and the length, which is 1, 2 or 3 bytes. -/
def Obligations.OpcodeByteAloneTellsTheLength : Prop :=
  ∀ (c : Config) (op : Byte) (bs bs' : List Byte) (i i' : Instr) (r r' : List Byte),
    decodeWith c (op :: bs) = .ok (i, r) → decodeWith c (op :: bs') = .ok (i', r') →
      i.format = i'.format ∧ i.length = i'.length ∧ 1 ≤ i.length ∧ i.length ≤ 3

/-- R52, R73: `{hi, lo}` is `lo + 256 * hi`, and its low and high byte are the two bytes again. -/
def Obligations.WordAssemblyIsLittleEndian : Prop :=
  ∀ lo hi : Byte, (wordOf lo hi).toNat = lo.toNat + 256 * hi.toNat ∧
    lowByte (wordOf lo hi) = lo ∧ highByte (wordOf lo hi) = hi

/-- R53, R58: words written out from the spec's encodings decode to the instructions they stand for. Rests on the opcode
values of decision D1 (log 1), which the spec marks as its own choice. -/
def Obligations.WrittenOutWordsDecode : Prop :=
  decode [0b10101001#8, 0x42#8] = .ok (.ldaIm 0x42#8, []) ∧
  decode [0b10100101#8, 0x42#8] = .ok (.ldaZp 0x42#8, []) ∧
  decode [0b10110101#8, 0x80#8] = .ok (.ldaZpx 0x80#8, []) ∧
  decode [0b00100000#8, 0x34#8, 0x12#8] = .ok (.jsr 0x1234#16, []) ∧
  decode [0x01#8] = .ok (.unknown 0x01#8, []) ∧
  decode [0x00#8, 0x20#8] = .ok (.unknown 0x00#8, [0x20#8])

/-- R54, R56: the table is valid, and the unknown opcodes are the 252 bytes other than 0x20, 0xA5, 0xA9 and 0xB5. Rests
on the opcode values of decision D1 (log 1), which the spec marks as its own choice. -/
def Obligations.UnknownOpcodesAreTheOther252Bytes : Prop :=
  Config.hw.valid ∧
  ∀ b : Byte, formatOf Config.hw b = .unk ↔ b ∉ [0x20#8, 0xA5#8, 0xA9#8, 0xB5#8]

/-! ### What an instruction does, once its bytes are fetched -/

/-- R111, the handler after its operand fetch: completes for every operand in every state; `A`, `Z` and `N` are written
and nothing else. -/
def Obligations.LdaImmediateLoadsItsOperand : Prop :=
  ∀ (imm : Byte) (s : State), ∃ tr, exec (.ldaIm imm) s = .next
    { s with
      a := imm
      flags := { s.flags with z := decide (imm.toNat = 0), n := decide (128 ≤ imm.toNat) }
      trace := tr }

/-- R112, the handler after its operand fetch: one data read of the zero page, one cycle. -/
def Obligations.LdaZeroPageLoadsTheZeroPageCell : Prop :=
  ∀ (zp : Byte) (s : State), ∃ tr, exec (.ldaZp zp) s = .next
    { s with
      a := memRead (BitVec.ofNat 16 zp.toNat) s
      flags := { s.flags with
        z := decide ((memRead (BitVec.ofNat 16 zp.toNat) s).toNat = 0)
        n := decide (128 ≤ (memRead (BitVec.ofNat 16 zp.toNat) s).toNat) }
      remaining := s.remaining - 1
      trace := tr }

/-- R113, R90, the handler after its operand fetch: the index addition wraps within 8 bits and costs one cycle, the read
costs one. That a wrapped sum costs no more is the spec's own reading (decision D21, log 29). -/
def Obligations.LdaZeroPageXLoadsTheIndexedCell : Prop :=
  ∀ (zp : Byte) (s : State), ∃ tr, exec (.ldaZpx zp) s = .next
    { s with
      a := memRead (BitVec.ofNat 16 ((zp.toNat + s.x.toNat) % 256)) s
      flags := { s.flags with
        z := decide ((memRead (BitVec.ofNat 16 ((zp.toNat + s.x.toNat) % 256)) s).toNat = 0)
        n := decide (128 ≤ (memRead (BitVec.ofNat 16 ((zp.toNat + s.x.toNat) % 256)) s).toNat) }
      remaining := s.remaining - 2
      trace := tr }

/-- R120, the handler after its word fetch: completes in every state. The return address `PC - 1` goes to the stack
region, `PC` becomes the target, three cycles are charged, and no other register, flag or cell changes. The address
(decision D2, log 2), the byte order (D3, log 4) and the step of `SP` (D5, logs 3 and 5) are the spec's own choices; the
value of `SP_DELTA` stays open. Reading the two bytes back needs the memory's canonical form. -/
def Obligations.JsrSavesTheReturnAddressAndJumps : Prop :=
  ∀ (target : Word) (s : State), ∃ t, exec (.jsr target) s = .next t ∧
    t.pc = target ∧ t.sp = s.sp + Config.hw.spDelta ∧
    t.a = s.a ∧ t.x = s.x ∧ t.y = s.y ∧ t.flags = s.flags ∧
    t.remaining = s.remaining - 3 ∧ t.requested = s.requested ∧ t.diag = s.diag ∧
    (s.Inv → memRead (stackAddr Config.hw s) t = lowByte (s.pc - 1) ∧
      memRead (stackAddr Config.hw s + 1) t = highByte (s.pc - 1)) ∧
    ∀ addr, addr ≠ stackAddr Config.hw s → addr ≠ stackAddr Config.hw s + 1 → memRead addr t = memRead addr s

/-- R130, the handler: completes in every state for every byte that has no table entry; the byte is reported and nothing
else happens. On the four bytes that have one the term is not well formed, R130 says nothing, and the same claim is the
model's own choice (log 19). The sink as a list is decision D14 (log 10). -/
def Obligations.UnknownOpcodeOnlyReports : Prop :=
  ∀ (op : Byte) (s : State), exec (.unknown op) s = .next { s with diag := s.diag ++ [op] }

/-- R110: after every load form `Z` and `N` follow the value now in `A`, by the outcome table, they are never both 1,
and the other five flags keep their values. -/
def Obligations.LoadsSetZeroAndNegativeFromTheAccumulator : Prop :=
  ∀ (i : Instr) (s : State), i.format = .imm ∨ i.format = .zp ∨ i.format = .zpx →
    ∃ t, exec i s = .next t ∧
      (t.a.toNat = 0 → t.flags.z = true ∧ t.flags.n = false) ∧
      (1 ≤ t.a.toNat ∧ t.a.toNat ≤ 0x7F → t.flags.z = false ∧ t.flags.n = false) ∧
      (0x80 ≤ t.a.toNat → t.flags.z = false ∧ t.flags.n = true) ∧
      ¬ (t.flags.z = true ∧ t.flags.n = true) ∧
      t.flags.c = s.flags.c ∧ t.flags.i = s.flags.i ∧ t.flags.d = s.flags.d ∧ t.flags.b = s.flags.b ∧
      t.flags.v = s.flags.v

/-! ### One step -/

/-- R97: when the bytes at `PC` decode to `i`, the step is `exec i` at the state whose `PC` is past the instruction's
bytes and whose budget is charged one cycle for each of them (R72). -/
def Obligations.StepRunsTheDecodedInstruction : Prop :=
  ∀ (s : State) (i : Instr) (rest : List Byte),
    decode [memRead s.pc s, memRead (s.pc + 1) s, memRead (s.pc + 2) s] = .ok (i, rest) →
      ∃ tr, step s = exec i
        { s with
          pc := s.pc + BitVec.ofNat 16 i.length
          remaining := s.remaining - i.length
          trace := tr }

/-- R97, R98 and the handlers of R111 to R113, R120, R130: the step that fetches and decodes a whole instruction first
is the step as the spec's pseudocode writes it, in every state and every field. -/
def Obligations.StepIsTheSpecsPseudocode : Prop :=
  ∀ s : State, step s = .next (stepWith Config.hw s)

/-- R140, R156: no instruction can fault and none is refused; a step from every state answers a next state. For the
ill-formed terms `unknown b` with `b` one of the four opcode bytes, which no step reaches, the first clause is the model's
own choice (log 19). -/
def Obligations.NoInstructionAndNoStepEverStops : Prop :=
  (∀ (i : Instr) (s : State), ∃ t, exec i s = .next t) ∧ ∀ s : State, ∃ t, step s = .next t

/-- R111: LDA immediate as a whole, opcode fetch included. -/
def Obligations.StepOnLdaImmediate : Prop :=
  ∀ s : State, memRead s.pc s = Config.hw.opcLdaIm →
    ∃ tr, step s = .next
      { s with
        pc := s.pc + 2
        a := memRead (s.pc + 1) s
        flags := { s.flags with
          z := decide ((memRead (s.pc + 1) s).toNat = 0)
          n := decide (128 ≤ (memRead (s.pc + 1) s).toNat) }
        remaining := s.remaining - 2
        trace := tr }

/-- R112: LDA zero page as a whole, opcode fetch included. -/
def Obligations.StepOnLdaZeroPage : Prop :=
  ∀ s : State, memRead s.pc s = Config.hw.opcLdaZp →
    ∀ v : Byte, v = memRead (BitVec.ofNat 16 (memRead (s.pc + 1) s).toNat) s →
      ∃ tr, step s = .next
        { s with
          pc := s.pc + 2
          a := v
          flags := { s.flags with z := decide (v.toNat = 0), n := decide (128 ≤ v.toNat) }
          remaining := s.remaining - 3
          trace := tr }

/-- R113: LDA zero page,X as a whole, opcode fetch included; 4 cycles whether or not the sum wrapped. That a wrap costs
no more is the spec's own reading (R90, decision D21, log 29). -/
def Obligations.StepOnLdaZeroPageX : Prop :=
  ∀ s : State, memRead s.pc s = Config.hw.opcLdaZpx →
    ∀ v : Byte, v = memRead (BitVec.ofNat 16 (((memRead (s.pc + 1) s).toNat + s.x.toNat) % 256)) s →
      ∃ tr, step s = .next
        { s with
          pc := s.pc + 2
          a := v
          flags := { s.flags with z := decide (v.toNat = 0), n := decide (128 ≤ v.toNat) }
          remaining := s.remaining - 4
          trace := tr }

/-- R120 as a whole, opcode fetch included, at every configuration: any `STACK_BASE` and any `SP_DELTA`. The value saved
is the address of the JSR's third byte. The form of the address (D2, log 2), the byte order (D3, log 4) and the step of
`SP` (D5, logs 3 and 5) are the spec's own choices. -/
def Obligations.JsrStepAtEveryConfiguration : Prop :=
  ∀ (c : Config) (s : State), c.valid → s.Inv → memRead s.pc s = c.opcJsr →
    (stepWith c s).pc = wordOf (memRead (s.pc + 1) s) (memRead (s.pc + 2) s) ∧
    (stepWith c s).sp = s.sp + c.spDelta ∧
    (stepWith c s).a = s.a ∧ (stepWith c s).x = s.x ∧ (stepWith c s).y = s.y ∧ (stepWith c s).flags = s.flags ∧
    (stepWith c s).remaining = s.remaining - 6 ∧ (stepWith c s).requested = s.requested ∧
    (stepWith c s).diag = s.diag ∧
    memRead (c.stackBase + zext16 s.sp) (stepWith c s) = lowByte (s.pc + 2) ∧
    memRead (c.stackBase + zext16 s.sp + 1) (stepWith c s) = highByte (s.pc + 2) ∧
    ∀ addr, addr ≠ c.stackBase + zext16 s.sp → addr ≠ c.stackBase + zext16 s.sp + 1 →
      memRead addr (stepWith c s) = memRead addr s

/-- R130: an unknown opcode as a whole: one byte, one cycle, one event, no change of any register, flag or cell. -/
def Obligations.StepOnUnknownOpcode : Prop :=
  ∀ s : State, memRead s.pc s ∉ Config.hw.opcodes →
    ∃ tr, step s = .next
      { s with
        pc := s.pc + 1
        remaining := s.remaining - 1
        diag := s.diag ++ [memRead s.pc s]
        trace := tr }

/-! ### What every step leaves alone, and what it does not look at -/

/-- R16: `C`, `I`, `D`, `B` and `V` are written by no instruction; `Z` and `N` are written by no instruction but LDA.
That the five flags without a use are kept as state is decision D18 (log 30). -/
def Obligations.OnlyLoadsWriteFlagsAndOnlyZeroAndNegative : Prop :=
  ∀ s : State, ∃ t, step s = .next t ∧
    t.flags.c = s.flags.c ∧ t.flags.i = s.flags.i ∧ t.flags.d = s.flags.d ∧ t.flags.b = s.flags.b ∧
    t.flags.v = s.flags.v ∧
    (memRead s.pc s ∉ [Config.hw.opcLdaIm, Config.hw.opcLdaZp, Config.hw.opcLdaZpx] → t.flags = s.flags)

/-- R11, R12, R18: `X`, `Y` and the latched request are written by no instruction, `A` only by LDA, `SP` only by JSR.
That `Y`, which has no use, is kept as state is decision D18 (log 30). -/
def Obligations.OnlyLoadsWriteAAndOnlyJsrWritesSp : Prop :=
  ∀ s : State, ∃ t, step s = .next t ∧ t.x = s.x ∧ t.y = s.y ∧ t.requested = s.requested ∧
    (memRead s.pc s ∉ [Config.hw.opcLdaIm, Config.hw.opcLdaZp, Config.hw.opcLdaZpx] → t.a = s.a) ∧
    (memRead s.pc s ≠ Config.hw.opcJsr → t.sp = s.sp)

/-- R13, R124: JSR is the only instruction that changes `PC` other than by fetching, to a target without any alignment;
every other one leaves it past its own bytes, modulo 65,536. -/
def Obligations.OnlyJsrChangesPcOtherThanByFetching : Prop :=
  ∀ s : State, ∃ t, step s = .next t ∧
    (memRead s.pc s = Config.hw.opcJsr →
      t.pc.toNat = (memRead (s.pc + 1) s).toNat + 256 * (memRead (s.pc + 2) s).toNat) ∧
    (memRead s.pc s ≠ Config.hw.opcJsr →
      t.pc.toNat = (s.pc.toNat + 1 + (formatOf Config.hw (memRead s.pc s)).operandBytes) % 65536)

/-- R114, R120: the only instruction that writes memory is JSR, and it writes only the two cells at the address its
meaning computes; the fetches before it change no `SP`. That address (decision D2, log 2), the 16-bit step to the second
cell (D3, log 4) and the use of `SP` before its step (D5, D6, log 5) are the spec's own choices. -/
def Obligations.OnlyJsrWritesMemory : Prop :=
  ∀ s : State, ∃ t, step s = .next t ∧
    (memRead s.pc s ≠ Config.hw.opcJsr → ∀ addr, memRead addr t = memRead addr s) ∧
    (memRead s.pc s = Config.hw.opcJsr → ∀ addr, addr ≠ stackAddr Config.hw s → addr ≠ stackAddr Config.hw s + 1 →
      memRead addr t = memRead addr s)

/-- R10, R16, R18, R154: no instruction reads `A`, `Y`, any flag, the request, the budget or either stream. Two states
that differ only there step to the same `PC`, `SP`, `X` and memory, charge the same cycles and emit the same events, and
a load gives both the same `A`, `Z` and `N`. That `Y` and the five flags without a use are kept as state is decision D18
(log 30). -/
def Obligations.NoInstructionReadsInertState : Prop :=
  ∀ (s : State) (a y : Byte) (f : Flags) (req rem : Int) (diag : List Byte) (trace : List BusEvent),
    ∃ t u, step s = .next t ∧
      step { s with a := a, y := y, flags := f, requested := req, remaining := rem, diag := diag, trace := trace } = .next u ∧
      u.pc = t.pc ∧ u.sp = t.sp ∧ u.x = t.x ∧ u.mem = t.mem ∧ u.y = y ∧ u.requested = req ∧
      u.remaining - rem = t.remaining - s.remaining ∧
      (memRead s.pc s ∈ [Config.hw.opcLdaIm, Config.hw.opcLdaZp, Config.hw.opcLdaZpx] →
        u.a = t.a ∧ u.flags.z = t.flags.z ∧ u.flags.n = t.flags.n) ∧
      (∃ ev, t.diag = s.diag ++ ev ∧ u.diag = diag ++ ev) ∧
      ∃ ev, t.trace = s.trace ++ ev ∧ u.trace = trace ++ ev

/-- R154: one event per unknown opcode fetched, carrying the byte, none for any other reason, in fetch order; `reset`
does not change the sink, and no state of the sink changes what a step does to the rest. -/
def Obligations.DiagnosticsEventsAreTheUnknownOpcodesFetched : Prop :=
  (∀ s : State, ∃ t, step s = .next t ∧
    (memRead s.pc s ∉ Config.hw.opcodes → t.diag = s.diag ++ [memRead s.pc s]) ∧
    (memRead s.pc s ∈ Config.hw.opcodes → t.diag = s.diag)) ∧
  (∀ s : State, (resetCommand s).diag = s.diag) ∧
  ∀ (s t : State) (d : List Byte), step s = .next t → ∃ ev, t.diag = s.diag ++ ev ∧
    step { s with diag := d } = .next { t with diag := d ++ ev }

/-! ### Cycles and bus transactions -/

/-- R55, R172: the cycles a step charges are the base cycle cost of its opcode's table entry, 2, 3, 4 and 6 for the four
entries and 1 for an unknown opcode, whatever the operands and the state. That the base cost is not charged on top of
the single charges (decision D17, log 28) and that a wrapped index costs nothing extra (D21, log 29) are the spec's own
choices. -/
def Obligations.StepChargesTheBaseCycleCost : Prop :=
  ∀ s : State, ∃ t, step s = .next t ∧
    s.remaining - t.remaining = baseCycles Config.hw (memRead s.pc s) ∧
    (memRead s.pc s = Config.hw.opcLdaIm → s.remaining - t.remaining = 2) ∧
    (memRead s.pc s = Config.hw.opcLdaZp → s.remaining - t.remaining = 3) ∧
    (memRead s.pc s = Config.hw.opcLdaZpx → s.remaining - t.remaining = 4) ∧
    (memRead s.pc s = Config.hw.opcJsr → s.remaining - t.remaining = 6) ∧
    (memRead s.pc s ∉ Config.hw.opcodes → s.remaining - t.remaining = 1)

/-- R71: every bus transaction charges one cycle, and besides them only zero page,X and JSR charge one more, an internal
cycle. The record of transactions is the model's own (log 11); that an internal cycle is no bus transaction is the
spec's own choice (decision D7, log 16). So is that a wrapped index charges nothing more (D21, log 29). -/
def Obligations.ChargesAreTransactionsPlusInternalCycles : Prop :=
  ∀ s : State, ∃ t ev, step s = .next t ∧ t.trace = s.trace ++ ev ∧ s.remaining - t.remaining = ev.length ∧
    ev.count .internal =
      if memRead s.pc s = Config.hw.opcLdaZpx ∨ memRead s.pc s = Config.hw.opcJsr then 1 else 0

/-- R38, R92, and JSR's pseudocode with the address of its write (44_jump_to_subroutine.md sections 1 and 2): the
transactions of a step in order. The record is the model's own (log 11). The rest of what the source leaves open is the
spec's own choice: for JSR the address written to (decision D2, log 2), the byte at each of the two cells and their
order in time (D3, D4, log 4), the use of `SP` before its step and the internal cycle at the end (D5, D6, log 5); for
zero page,X and JSR, that an internal cycle makes no bus access (D7, log 16). For zero page,X, too: a wrapped index adds
no cycle (D21, log 29). -/
def Obligations.BusTransactionsOfAStepInOrder : Prop :=
  ∀ (s : State) (b1 b2 : Byte), b1 = memRead (s.pc + 1) s → b2 = memRead (s.pc + 2) s →
    ∃ t ev, step s = .next t ∧ t.trace = s.trace ++ .read s.pc (memRead s.pc s) :: ev ∧
      (memRead s.pc s = Config.hw.opcLdaIm → ev = [.read (s.pc + 1) b1]) ∧
      (memRead s.pc s = Config.hw.opcLdaZp →
        ev = [.read (s.pc + 1) b1, .read (zeroPageAddr b1) (memRead (zeroPageAddr b1) s)]) ∧
      (memRead s.pc s = Config.hw.opcLdaZpx →
        ev = [.read (s.pc + 1) b1, .internal, .read (zeroPageXAddr b1 s.x) (memRead (zeroPageXAddr b1 s.x) s)]) ∧
      (memRead s.pc s = Config.hw.opcJsr →
        ev = [.read (s.pc + 1) b1, .read (s.pc + 2) b2,
          .write (stackAddr Config.hw s) (lowByte (s.pc + 2)),
          .write (stackAddr Config.hw s + 1) (highByte (s.pc + 2)), .internal]) ∧
      (memRead s.pc s ∉ Config.hw.opcodes → ev = [])

/-- R90: the effective address of zero page,X is `(base + X) mod 256`; it never leaves the zero page. R87: that of zero
page is the byte itself. -/
def Obligations.IndexedAddressWrapsWithinTheZeroPage : Prop :=
  (∀ zp x : Byte, (zeroPageXAddr zp x).toNat = (zp.toNat + x.toNat) % 256 ∧ (zeroPageXAddr zp x).toNat ≤ 0x00FF) ∧
  (∀ zp : Byte, (zeroPageAddr zp).toNat = zp.toNat) ∧
  zeroPageXAddr 0x80#8 0xFF#8 = 0x007F#16

/-! ### Memory -/

/-- R31: a write changes exactly one cell, at any of the 65,536 addresses, and the value read back is the value
written. -/
def Obligations.RawWriteChangesExactlyOneCell : Prop :=
  ∀ (s : State) (addr : Word) (v : Byte), s.Inv →
    memRead addr (memWrite addr v s) = v ∧
    (∀ other, other ≠ addr → memRead other (memWrite addr v s) = memRead other s) ∧
    memWrite addr v s = { s with mem := (memWrite addr v s).mem }

/-- R75, R44: a word written by `WriteWord` is what `FetchWord` reads at the same address at once, for every address, the
top one included. The byte order of the write is decision D3 (log 4). -/
def Obligations.WrittenWordIsFetchedBack : Prop :=
  ∀ (s : State) (addr w : Word), s.Inv → (fetchWord (setPc addr (writeWord addr w s))).1 = w

/-- R44: a JSR that jumps to the cells it wrote makes its return address the next instruction: the next step's opcode is
the low byte of that address. Rests on decisions D2, D3, D5 and D6 (logs 2, 4 and 5). -/
def Obligations.NextStepFetchesWhatJsrWrote : Prop :=
  ∀ s t : State, s.Inv → memRead s.pc s = Config.hw.opcJsr →
    wordOf (memRead (s.pc + 1) s) (memRead (s.pc + 2) s) = stackAddr Config.hw s → step s = .next t →
      memRead t.pc t = lowByte (s.pc + 2) ∧ memRead (t.pc + 1) t = highByte (s.pc + 2)

/-- R122's reference behaviour, named: at `SP_DELTA` = 2 nested JSRs save their return addresses side by side, the second
word in the two cells after the first, as long as `SP` does not wrap. Rests on decisions D2, D3 and D5 (logs 2 to 5). -/
def Obligations.NestedJsrsSaveSideBySideAtSpDeltaTwo : Prop :=
  ∀ (c : Config) (s : State), c.valid → c.spDelta = 2 → s.Inv → s.sp.toNat ≤ 0xFD →
    memRead s.pc s = c.opcJsr → memRead (stepWith c s).pc (stepWith c s) = c.opcJsr →
      memRead (c.stackBase + zext16 s.sp) (stepWith c (stepWith c s)) = lowByte (s.pc + 2) ∧
      memRead (c.stackBase + zext16 s.sp + 1) (stepWith c (stepWith c s)) = highByte (s.pc + 2) ∧
      memRead (c.stackBase + zext16 s.sp + 2) (stepWith c (stepWith c s)) = lowByte ((stepWith c s).pc + 2) ∧
      memRead (c.stackBase + zext16 s.sp + 3) (stepWith c (stepWith c s)) = highByte ((stepWith c s).pc + 2)

/-- The model's own canonical form (log 12): two memories that read alike at every address are the same data. -/
def Obligations.MemoriesThatReadAlikeAreEqual : Prop :=
  ∀ m m' : Memory, m.wf → m'.wf → (∀ addr : Word, m.read addr.toNat = m'.read addr.toNat) → m = m'

/-! ### Reset -/

/-- R23: the reset values the spec states, the memory at every address among them; `Z` is 0 although `A` is 0. -/
def Obligations.ResetStateHoldsTheSpecsValues : Prop :=
  State.reset.pc = 0xFFFC#16 ∧ State.reset.sp = 0x00#8 ∧ State.reset.a = 0x00#8 ∧ State.reset.x = 0x00#8 ∧
  State.reset.y = 0x00#8 ∧
  State.reset.flags = { c := false, z := false, i := false, d := false, b := false, v := false, n := false } ∧
  ∀ addr : Word, memRead addr State.reset = 0x00#8

/-- R161: from any prior state, `reset` gives the values of R23, does not depend on the state before, and is idempotent.
The last two clauses equate whole states, so they also say three things that are choices: `remaining` and `requested`,
which R23 gives no value, have one fixed value after `reset` (the model's choice, log 8); the diagnostics sink is left as
it is (decision D14, log 10); and so is the model's own bus record (log 11). -/
def Obligations.ResetCommandIsTotalAndIdempotent : Prop :=
  (∀ s : State, (resetCommand s).pc = 0xFFFC#16 ∧ (resetCommand s).sp = 0x00#8 ∧ (resetCommand s).a = 0x00#8 ∧
    (resetCommand s).x = 0x00#8 ∧ (resetCommand s).y = 0x00#8 ∧
    (resetCommand s).flags = { c := false, z := false, i := false, d := false, b := false, v := false, n := false } ∧
    ∀ addr : Word, memRead addr (resetCommand s) = 0x00#8) ∧
  (∀ s u : State, resetCommand s = { resetCommand u with diag := s.diag, trace := s.trace }) ∧
  ∀ s : State, resetCommand (resetCommand s) = resetCommand s

/-- The machine's invariant holds after reset. -/
def Obligations.ResetStateSatisfiesTheInvariant : Prop := State.reset.Inv

/-! ### Invariants -/

/-- Every step from every state that meets the invariant gives a state that meets it: memory keeps its canonical form,
with every address below 65,536 (R30). -/
def Obligations.EveryStepKeepsMemoryCanonical : Prop :=
  ∀ s t : State, s.Inv → step s = .next t → t.Inv

/-- So does every command of the host (R5), and a machine before its first reset has it (R25). -/
def Obligations.EveryCommandKeepsMemoryCanonical : Prop :=
  (∀ (k : Command) (s t : State) (r : Reply), s.Inv → k.run s = .next (t, r) → t.Inv) ∧
  ∀ arbitrary : State, (powerUp arbitrary).Inv

/-- R18, R99: a step that the budget allowed uses up at least one cycle of it and keeps it between -5 and the request. -/
def Obligations.AllowedStepKeepsTheBudgetBounds : Prop :=
  ∀ s t : State, 0 < s.remaining → s.BudgetOk → step s = .next t →
    t.BudgetOk ∧ t.remaining < s.remaining ∧ t.requested = s.requested

/-! ### The `execute` command -/

/-- R96, R95, R103: `execute(n)` answers `requested - remaining` of the state at the end of the loop: the first
instruction boundary with no budget left, reached from the state with the budget set to `n` by steps each of which the
budget allowed. -/
def Obligations.ExecuteIsTheBudgetLoop : Prop :=
  ∀ (n : Int) (s t : State) (r : Reply), (Command.execute n).run s = .next (t, r) ↔
    (∃ k, Reaches k { s with requested := n, remaining := n } t) ∧ ¬ 0 < t.remaining ∧
      r = .cyclesConsumed (t.requested - t.remaining)

/-- R99, R104: for a request of 0 or more `execute` always ends, and consumes at least the request and at most 5 cycles
more. -/
def Obligations.ExecuteEndsWithinFiveCyclesOfTheRequest : Prop :=
  ∀ (n : Int) (s : State), 0 ≤ n → ∃ t, execute n s = .next t ∧
    n ≤ consumed t ∧ consumed t ≤ n + 5 ∧ t.requested = n ∧ -5 ≤ t.remaining ∧ t.remaining ≤ 0

/-- R104: `execute(n)` runs at most `n` steps. -/
def Obligations.ExecuteRunsAtMostAsManyStepsAsRequested : Prop :=
  ∀ (n : Int) (k : Nat) (s t : State), Reaches k { s with requested := n, remaining := n } t → k ≤ n.toNat

/-- R103, R71: the cycles consumed are the sum of all charges of the command: one for each entry it adds to the record of
bus transactions and internal cycles (the model's own, log 11). -/
def Obligations.ConsumedIsTheSumOfAllCharges : Prop :=
  ∀ (n : Int) (s : State), ∃ t ev, execute n s = .next t ∧ t.trace = s.trace ++ ev ∧ consumed t = ev.length

/-- R100: a request of zero makes no memory access, changes no register, no flag and no memory cell, emits no event and
returns 0; only the budget is set. -/
def Obligations.ExecuteZeroDoesNothing : Prop :=
  ∀ s : State, (Command.execute 0).run s = .next ({ s with requested := 0, remaining := 0 }, .cyclesConsumed 0)

/-- R101: a negative request runs no step and returns 0. The reading is decision D8 (log 9), the spec's own. -/
def Obligations.ExecuteOfANegativeRequestDoesNothing : Prop :=
  ∀ (n : Int) (s : State), n < 0 →
    (Command.execute n).run s = .next ({ s with requested := n, remaining := n }, .cyclesConsumed 0)

/-- R152: a request of 1 always runs exactly one step. -/
def Obligations.ExecuteOneRunsExactlyOneStep : Prop :=
  ∀ s : State, execute 1 s = step { s with requested := 1, remaining := 1 }

/-- R102: the budget is set afresh at entry; what an earlier command left in it plays no part. That the budget belongs
to one command, and that no count runs on over commands, is the spec's own choice (decision D9, log 27). -/
def Obligations.ExecuteSetsItsBudgetAfresh : Prop :=
  ∀ (n q r : Int) (s : State), execute n { s with requested := q, remaining := r } = execute n s

/-- R130's corner case: `execute(n)` on freshly reset memory runs `n` steps, emits `n` events for byte 0x00 and advances
`PC` by `n` modulo 65,536. Rests on 0x00 being no opcode (decision D1, log 1). -/
def Obligations.ExecuteOnResetMemoryReportsZeros : Prop :=
  ∀ (n : Nat) (s : State), ∃ tr, execute n (resetCommand s) = .next
    { resetCommand s with
      pc := 0xFFFC#16 + BitVec.ofNat 16 n
      requested := n
      remaining := 0
      diag := s.diag ++ List.replicate n 0x00#8
      trace := tr }

/-- R95 over the spec's own step: at this hardware's configuration, `execute` of the model is `execute` over the
pseudocode, which exists at every configuration (R6). -/
def Obligations.ExecuteIsExecuteOverThePseudocode : Prop :=
  ∀ (n : Int) (s : State), execute n s = executeWith Config.hw n s

/-- R104, R140: every command of the host answers; none is cut short. -/
def Obligations.EveryCommandAnswers : Prop :=
  ∀ (k : Command) (s : State), ∃ t r, k.run s = .next (t, r)

/-! ### Host access -/

/-- R24: a host write of a register or flag changes that one and nothing else, and is not charged. -/
def Obligations.HostWriteOfARegisterChangesOnlyIt : Prop :=
  ∀ (s : State) (w : Word) (v : Byte) (f : Flag) (bit : Bool),
    (Command.writePc w).run s = .next ({ s with pc := w }, .done) ∧
    (Command.writeSp v).run s = .next ({ s with sp := v }, .done) ∧
    (Command.writeA v).run s = .next ({ s with a := v }, .done) ∧
    (Command.writeX v).run s = .next ({ s with x := v }, .done) ∧
    (Command.writeY v).run s = .next ({ s with y := v }, .done) ∧
    ∃ g, (Command.writeFlag f bit).run s = .next ({ s with flags := g }, .done) ∧ g.get f = bit ∧
      ∀ f', f' ≠ f → g.get f' = s.flags.get f'

/-- R24, R33: after a host write of a cell, a host read of it answers the value written and every other cell as before;
neither charges a cycle or changes anything else. -/
def Obligations.HostWriteOfACellIsReadBack : Prop :=
  ∀ (s : State) (addr other : Word) (v : Byte), s.Inv → ∃ m,
    (Command.writeCell addr v).run s = .next ({ s with mem := m }, .done) ∧
    (Command.readCell addr).run { s with mem := m } = .next ({ s with mem := m }, .byte v) ∧
    (other ≠ addr →
      (Command.readCell other).run { s with mem := m } = .next ({ s with mem := m }, .byte (memRead other s)))

/-- R24: a host read answers the value of the register or flag it names and changes nothing. -/
def Obligations.HostReadAnswersAndChangesNothing : Prop :=
  ∀ (s : State) (f : Flag), Command.readPc.run s = .next (s, .word s.pc) ∧
    Command.readSp.run s = .next (s, .byte s.sp) ∧ Command.readA.run s = .next (s, .byte s.a) ∧
    Command.readX.run s = .next (s, .byte s.x) ∧ Command.readY.run s = .next (s, .byte s.y) ∧
    (Command.readFlag f).run s = .next (s, .bit (s.flags.get f))
end

