-- ==== Sys2Proof/Laws/State.lean ====
section
/-! SUPPORT. One lemma per field per named update of the state, true by rfl, and the flag fields after a load: later
proofs unfold no record update. -/

namespace Sys2Proof.Machine

@[simp] theorem charge_pc (n : Nat) (s : State) : (charge n s).pc = s.pc := rfl
@[simp] theorem charge_sp (n : Nat) (s : State) : (charge n s).sp = s.sp := rfl
@[simp] theorem charge_a (n : Nat) (s : State) : (charge n s).a = s.a := rfl
@[simp] theorem charge_x (n : Nat) (s : State) : (charge n s).x = s.x := rfl
@[simp] theorem charge_y (n : Nat) (s : State) : (charge n s).y = s.y := rfl
@[simp] theorem charge_flags (n : Nat) (s : State) : (charge n s).flags = s.flags := rfl
@[simp] theorem charge_remaining (n : Nat) (s : State) : (charge n s).remaining = s.remaining - n := rfl
@[simp] theorem charge_requested (n : Nat) (s : State) : (charge n s).requested = s.requested := rfl
@[simp] theorem charge_mem (n : Nat) (s : State) : (charge n s).mem = s.mem := rfl
@[simp] theorem charge_diag (n : Nat) (s : State) : (charge n s).diag = s.diag := rfl
@[simp] theorem charge_trace (n : Nat) (s : State) : (charge n s).trace = s.trace := rfl

@[simp] theorem record_pc (e : BusEvent) (s : State) : (record e s).pc = s.pc := rfl
@[simp] theorem record_sp (e : BusEvent) (s : State) : (record e s).sp = s.sp := rfl
@[simp] theorem record_a (e : BusEvent) (s : State) : (record e s).a = s.a := rfl
@[simp] theorem record_x (e : BusEvent) (s : State) : (record e s).x = s.x := rfl
@[simp] theorem record_y (e : BusEvent) (s : State) : (record e s).y = s.y := rfl
@[simp] theorem record_flags (e : BusEvent) (s : State) : (record e s).flags = s.flags := rfl
@[simp] theorem record_remaining (e : BusEvent) (s : State) : (record e s).remaining = s.remaining := rfl
@[simp] theorem record_requested (e : BusEvent) (s : State) : (record e s).requested = s.requested := rfl
@[simp] theorem record_mem (e : BusEvent) (s : State) : (record e s).mem = s.mem := rfl
@[simp] theorem record_diag (e : BusEvent) (s : State) : (record e s).diag = s.diag := rfl
@[simp] theorem record_trace (e : BusEvent) (s : State) : (record e s).trace = s.trace ++ [e] := rfl

@[simp] theorem setPc_pc (v : Word) (s : State) : (setPc v s).pc = v := rfl
@[simp] theorem setPc_sp (v : Word) (s : State) : (setPc v s).sp = s.sp := rfl
@[simp] theorem setPc_a (v : Word) (s : State) : (setPc v s).a = s.a := rfl
@[simp] theorem setPc_x (v : Word) (s : State) : (setPc v s).x = s.x := rfl
@[simp] theorem setPc_y (v : Word) (s : State) : (setPc v s).y = s.y := rfl
@[simp] theorem setPc_flags (v : Word) (s : State) : (setPc v s).flags = s.flags := rfl
@[simp] theorem setPc_remaining (v : Word) (s : State) : (setPc v s).remaining = s.remaining := rfl
@[simp] theorem setPc_requested (v : Word) (s : State) : (setPc v s).requested = s.requested := rfl
@[simp] theorem setPc_mem (v : Word) (s : State) : (setPc v s).mem = s.mem := rfl
@[simp] theorem setPc_diag (v : Word) (s : State) : (setPc v s).diag = s.diag := rfl
@[simp] theorem setPc_trace (v : Word) (s : State) : (setPc v s).trace = s.trace := rfl

@[simp] theorem setSp_pc (v : Byte) (s : State) : (setSp v s).pc = s.pc := rfl
@[simp] theorem setSp_sp (v : Byte) (s : State) : (setSp v s).sp = v := rfl
@[simp] theorem setSp_a (v : Byte) (s : State) : (setSp v s).a = s.a := rfl
@[simp] theorem setSp_x (v : Byte) (s : State) : (setSp v s).x = s.x := rfl
@[simp] theorem setSp_y (v : Byte) (s : State) : (setSp v s).y = s.y := rfl
@[simp] theorem setSp_flags (v : Byte) (s : State) : (setSp v s).flags = s.flags := rfl
@[simp] theorem setSp_remaining (v : Byte) (s : State) : (setSp v s).remaining = s.remaining := rfl
@[simp] theorem setSp_requested (v : Byte) (s : State) : (setSp v s).requested = s.requested := rfl
@[simp] theorem setSp_mem (v : Byte) (s : State) : (setSp v s).mem = s.mem := rfl
@[simp] theorem setSp_diag (v : Byte) (s : State) : (setSp v s).diag = s.diag := rfl
@[simp] theorem setSp_trace (v : Byte) (s : State) : (setSp v s).trace = s.trace := rfl

@[simp] theorem setA_pc (v : Byte) (s : State) : (setA v s).pc = s.pc := rfl
@[simp] theorem setA_sp (v : Byte) (s : State) : (setA v s).sp = s.sp := rfl
@[simp] theorem setA_a (v : Byte) (s : State) : (setA v s).a = v := rfl
@[simp] theorem setA_x (v : Byte) (s : State) : (setA v s).x = s.x := rfl
@[simp] theorem setA_y (v : Byte) (s : State) : (setA v s).y = s.y := rfl
@[simp] theorem setA_flags (v : Byte) (s : State) : (setA v s).flags = s.flags := rfl
@[simp] theorem setA_remaining (v : Byte) (s : State) : (setA v s).remaining = s.remaining := rfl
@[simp] theorem setA_requested (v : Byte) (s : State) : (setA v s).requested = s.requested := rfl
@[simp] theorem setA_mem (v : Byte) (s : State) : (setA v s).mem = s.mem := rfl
@[simp] theorem setA_diag (v : Byte) (s : State) : (setA v s).diag = s.diag := rfl
@[simp] theorem setA_trace (v : Byte) (s : State) : (setA v s).trace = s.trace := rfl

@[simp] theorem setZN_pc (v : Byte) (s : State) : (setZN v s).pc = s.pc := rfl
@[simp] theorem setZN_sp (v : Byte) (s : State) : (setZN v s).sp = s.sp := rfl
@[simp] theorem setZN_a (v : Byte) (s : State) : (setZN v s).a = s.a := rfl
@[simp] theorem setZN_x (v : Byte) (s : State) : (setZN v s).x = s.x := rfl
@[simp] theorem setZN_y (v : Byte) (s : State) : (setZN v s).y = s.y := rfl
@[simp] theorem setZN_flags (v : Byte) (s : State) : (setZN v s).flags = s.flags.afterLoad v := rfl
@[simp] theorem setZN_remaining (v : Byte) (s : State) : (setZN v s).remaining = s.remaining := rfl
@[simp] theorem setZN_requested (v : Byte) (s : State) : (setZN v s).requested = s.requested := rfl
@[simp] theorem setZN_mem (v : Byte) (s : State) : (setZN v s).mem = s.mem := rfl
@[simp] theorem setZN_diag (v : Byte) (s : State) : (setZN v s).diag = s.diag := rfl
@[simp] theorem setZN_trace (v : Byte) (s : State) : (setZN v s).trace = s.trace := rfl

@[simp] theorem memWrite_pc (addr : Word) (v : Byte) (s : State) : (memWrite addr v s).pc = s.pc := rfl
@[simp] theorem memWrite_sp (addr : Word) (v : Byte) (s : State) : (memWrite addr v s).sp = s.sp := rfl
@[simp] theorem memWrite_a (addr : Word) (v : Byte) (s : State) : (memWrite addr v s).a = s.a := rfl
@[simp] theorem memWrite_x (addr : Word) (v : Byte) (s : State) : (memWrite addr v s).x = s.x := rfl
@[simp] theorem memWrite_y (addr : Word) (v : Byte) (s : State) : (memWrite addr v s).y = s.y := rfl
@[simp] theorem memWrite_flags (addr : Word) (v : Byte) (s : State) : (memWrite addr v s).flags = s.flags := rfl
@[simp] theorem memWrite_remaining (addr : Word) (v : Byte) (s : State) : (memWrite addr v s).remaining = s.remaining := rfl
@[simp] theorem memWrite_requested (addr : Word) (v : Byte) (s : State) : (memWrite addr v s).requested = s.requested := rfl
@[simp] theorem memWrite_mem (addr : Word) (v : Byte) (s : State) : (memWrite addr v s).mem = s.mem.write addr.toNat v := rfl
@[simp] theorem memWrite_diag (addr : Word) (v : Byte) (s : State) : (memWrite addr v s).diag = s.diag := rfl
@[simp] theorem memWrite_trace (addr : Word) (v : Byte) (s : State) : (memWrite addr v s).trace = s.trace := rfl

@[simp] theorem report_pc (b : Byte) (s : State) : (report b s).pc = s.pc := rfl
@[simp] theorem report_sp (b : Byte) (s : State) : (report b s).sp = s.sp := rfl
@[simp] theorem report_a (b : Byte) (s : State) : (report b s).a = s.a := rfl
@[simp] theorem report_x (b : Byte) (s : State) : (report b s).x = s.x := rfl
@[simp] theorem report_y (b : Byte) (s : State) : (report b s).y = s.y := rfl
@[simp] theorem report_flags (b : Byte) (s : State) : (report b s).flags = s.flags := rfl
@[simp] theorem report_remaining (b : Byte) (s : State) : (report b s).remaining = s.remaining := rfl
@[simp] theorem report_requested (b : Byte) (s : State) : (report b s).requested = s.requested := rfl
@[simp] theorem report_mem (b : Byte) (s : State) : (report b s).mem = s.mem := rfl
@[simp] theorem report_diag (b : Byte) (s : State) : (report b s).diag = s.diag ++ [b] := rfl
@[simp] theorem report_trace (b : Byte) (s : State) : (report b s).trace = s.trace := rfl

@[simp] theorem beginExecute_pc (n : Int) (s : State) : (beginExecute n s).pc = s.pc := rfl
@[simp] theorem beginExecute_sp (n : Int) (s : State) : (beginExecute n s).sp = s.sp := rfl
@[simp] theorem beginExecute_a (n : Int) (s : State) : (beginExecute n s).a = s.a := rfl
@[simp] theorem beginExecute_x (n : Int) (s : State) : (beginExecute n s).x = s.x := rfl
@[simp] theorem beginExecute_y (n : Int) (s : State) : (beginExecute n s).y = s.y := rfl
@[simp] theorem beginExecute_flags (n : Int) (s : State) : (beginExecute n s).flags = s.flags := rfl
@[simp] theorem beginExecute_remaining (n : Int) (s : State) : (beginExecute n s).remaining = n := rfl
@[simp] theorem beginExecute_requested (n : Int) (s : State) : (beginExecute n s).requested = n := rfl
@[simp] theorem beginExecute_mem (n : Int) (s : State) : (beginExecute n s).mem = s.mem := rfl
@[simp] theorem beginExecute_diag (n : Int) (s : State) : (beginExecute n s).diag = s.diag := rfl
@[simp] theorem beginExecute_trace (n : Int) (s : State) : (beginExecute n s).trace = s.trace := rfl

@[simp] theorem Flags.afterLoad_c (f : Flags) (v : Byte) : (f.afterLoad v).c = f.c := rfl
@[simp] theorem Flags.afterLoad_i (f : Flags) (v : Byte) : (f.afterLoad v).i = f.i := rfl
@[simp] theorem Flags.afterLoad_d (f : Flags) (v : Byte) : (f.afterLoad v).d = f.d := rfl
@[simp] theorem Flags.afterLoad_b (f : Flags) (v : Byte) : (f.afterLoad v).b = f.b := rfl
@[simp] theorem Flags.afterLoad_v (f : Flags) (v : Byte) : (f.afterLoad v).v = f.v := rfl
@[simp] theorem Flags.afterLoad_z (f : Flags) (v : Byte) : (f.afterLoad v).z = (v == 0x00#8) := rfl
@[simp] theorem Flags.afterLoad_n (f : Flags) (v : Byte) : (f.afterLoad v).n = v.getLsbD 7 := rfl

/-- The raw read looks at nothing but the memory. -/
theorem memRead_congr {s t : State} (h : s.mem = t.mem) (addr : Word) : memRead addr s = memRead addr t := by
  simp [memRead, h]

end Sys2Proof.Machine
end

