-- ==== Sys2Proof/Laws/Memory.lean ====
section
/-! SUPPORT. The laws of the sparse memory: reads after a write, the canonical form is kept, and equal reads mean equal
data. -/

namespace Sys2Proof.Machine

/-- The canonical form of the tail of a list of cells. -/
theorem Memory.wf_tail {p : Host.Cell} {m : Memory} (h : Memory.wf (p :: m)) : Memory.wf m :=
  ⟨(List.pairwise_cons.mp h.1).2, fun q hq => h.2 q (List.mem_cons_of_mem p hq)⟩

/-- An address below every listed one reads as unlisted. -/
theorem Memory.read_below {m : Memory} {a : Nat} (h : ∀ p ∈ m, a < p.1) : m.read a = unlistedByte := by
  induction m with
  | nil => rfl
  | cons p m ih =>
    obtain ⟨k, w⟩ := p
    have hk : a < k := h (k, w) (by simp)
    simp only [Memory.read, Nat.ne_of_lt hk, if_false]
    exact ih fun q hq => h q (List.mem_cons_of_mem _ hq)

/-- Every cell of a written memory was there before or is the written one. -/
theorem Memory.mem_write {m : Memory} {a : Nat} {v : Byte} {p : Host.Cell} (h : p ∈ m.write a v) :
    p ∈ m ∨ (p = (a, v) ∧ v ≠ unlistedByte) := by
  induction m with
  | nil =>
    simp only [Memory.write] at h
    split at h
    · exact absurd h (by simp)
    · exact .inr ⟨by simpa using h, ‹_›⟩
  | cons q m ih =>
    obtain ⟨k, w⟩ := q
    simp only [Memory.write] at h
    split at h
    · split at h
      · exact .inl h
      · rcases List.mem_cons.mp h with rfl | h'
        · exact .inr ⟨rfl, ‹_›⟩
        · exact .inl h'
    · split at h
      · split at h
        · exact .inl (List.mem_cons_of_mem _ h)
        · rcases List.mem_cons.mp h with rfl | h'
          · exact .inr ⟨rfl, ‹_›⟩
          · exact .inl (List.mem_cons_of_mem _ h')
      · rcases List.mem_cons.mp h with rfl | h'
        · exact .inl (by simp)
        · exact (ih h').imp (List.mem_cons_of_mem _) id

/-- A write keeps the canonical form. -/
theorem Memory.write_wf {m : Memory} (h : m.wf) {a : Nat} (ha : a < 65536) (v : Byte) : (m.write a v).wf := by
  refine ⟨?_, fun p hp => ?_⟩
  · induction m with
    | nil =>
      simp only [Memory.write]
      split <;> simp
    | cons q m ih =>
      obtain ⟨k, w⟩ := q
      have hp := List.pairwise_cons.mp h.1
      have below : ∀ b, b < k → ∀ p ∈ (k, w) :: m, b < p.1 := by
        intro b hb p hp'
        rcases List.mem_cons.mp hp' with rfl | hm
        · exact hb
        · exact Nat.lt_trans hb (hp.1 p hm)
      simp only [Memory.write]
      split
      · split
        · exact h.1
        · exact List.pairwise_cons.mpr ⟨below a ‹_›, h.1⟩
      · split
        · split
          · exact hp.2
          · subst a
            exact List.pairwise_cons.mpr ⟨hp.1, hp.2⟩
        · refine List.pairwise_cons.mpr ⟨fun p hm => ?_, ih (Memory.wf_tail h)⟩
          rcases Memory.mem_write hm with hm' | ⟨rfl, _⟩
          · exact hp.1 p hm'
          · show k < a
            omega
  · rcases Memory.mem_write hp with hm | ⟨rfl, hv⟩
    · exact h.2 p hm
    · exact ⟨ha, hv⟩

/-- A read after a write to the same address gives the value written. -/
theorem Memory.read_write_same {m : Memory} (h : m.wf) (a : Nat) (v : Byte) : (m.write a v).read a = v := by
  induction m with
  | nil =>
    simp only [Memory.write]
    split <;> simp_all [Memory.read]
  | cons q m ih =>
    obtain ⟨k, w⟩ := q
    have hp := (List.pairwise_cons.mp h.1).1
    simp only [Memory.write]
    split
    · split
      · rw [Memory.read_below, ‹v = _›]
        intro p hm
        rcases List.mem_cons.mp hm with rfl | hm'
        · assumption
        · exact Nat.lt_trans ‹a < k› (hp p hm')
      · simp [Memory.read]
    · split
      · split
        · subst a
          rw [Memory.read_below hp, ‹v = _›]
        · simp [Memory.read]
      · simp only [Memory.read, if_neg ‹¬a = k›]
        exact ih (Memory.wf_tail h)

/-- A write leaves every other address alone. -/
theorem Memory.read_write_other {m : Memory} {a b : Nat} (hab : b ≠ a) (v : Byte) :
    (m.write a v).read b = m.read b := by
  induction m with
  | nil =>
    simp only [Memory.write]
    split <;> simp [Memory.read, hab]
  | cons q m ih =>
    obtain ⟨k, w⟩ := q
    simp only [Memory.write]
    split
    · split <;> simp [Memory.read, hab]
    · split
      · subst a
        split <;> simp [Memory.read, hab]
      · simp only [Memory.read]
        split
        · rfl
        · exact ih

/-- In a canonical memory a listed cell is what its address reads as. -/
theorem Memory.read_of_mem {m : Memory} (h : m.wf) {a : Nat} {v : Byte} (hm : (a, v) ∈ m) : m.read a = v := by
  induction m with
  | nil => exact absurd hm (by simp)
  | cons q m ih =>
    obtain ⟨k, w⟩ := q
    rcases List.mem_cons.mp hm with heq | hm'
    · obtain ⟨rfl, rfl⟩ := Prod.mk.inj heq
      simp [Memory.read]
    · have hk : k < a := (List.pairwise_cons.mp h.1).1 _ hm'
      simp only [Memory.read, if_neg (Nat.ne_of_gt hk)]
      exact ih (Memory.wf_tail h) hm'

@[simp] theorem memRead_charge (addr : Word) (n : Nat) (s : State) : memRead addr (charge n s) = memRead addr s := rfl
@[simp] theorem memRead_record (addr : Word) (e : BusEvent) (s : State) : memRead addr (record e s) = memRead addr s := rfl
@[simp] theorem memRead_setPc (addr v : Word) (s : State) : memRead addr (setPc v s) = memRead addr s := rfl
@[simp] theorem memRead_setSp (addr : Word) (v : Byte) (s : State) : memRead addr (setSp v s) = memRead addr s := rfl
@[simp] theorem memRead_setA (addr : Word) (v : Byte) (s : State) : memRead addr (setA v s) = memRead addr s := rfl
@[simp] theorem memRead_setZN (addr : Word) (v : Byte) (s : State) : memRead addr (setZN v s) = memRead addr s := rfl
@[simp] theorem memRead_report (addr : Word) (b : Byte) (s : State) : memRead addr (report b s) = memRead addr s := rfl

/-- The raw write at another address is not seen by a read. -/
theorem memRead_memWrite_other {a b : Word} (h : b ≠ a) (v : Byte) (s : State) :
    memRead b (memWrite a v s) = memRead b s :=
  Memory.read_write_other (fun hn => h (BitVec.eq_of_toNat_eq hn)) v

/-- The raw write is seen by a read of its address. -/
theorem memRead_memWrite_same {s : State} (h : s.mem.wf) (a : Word) (v : Byte) : memRead a (memWrite a v s) = v :=
  Memory.read_write_same h a.toNat v

/-- The raw write keeps the canonical form. -/
theorem memWrite_wf {s : State} (h : s.mem.wf) (a : Word) (v : Byte) : (memWrite a v s).mem.wf :=
  Memory.write_wf h a.isLt v

end Sys2Proof.Machine
end

