-- ==== Sys2Proof/Laws/Ops.lean ====
section
/-! SUPPORT. One lemma per shared operation: everything it can do. The provers cite these and unfold no operation. -/

namespace Sys2Proof.Machine

/-- Two increments of a 16-bit value are an addition of 2. -/
theorem add_one_add_one (p : Word) : p + 1#16 + 1#16 = p + 2#16 := by
  rw [BitVec.add_assoc]; rfl

/-- An address and the next one differ. -/
theorem add_one_ne (a : Word) : a + 1 ≠ a := by
  intro h
  have := congrArg BitVec.toNat h
  simp [BitVec.toNat_add] at this
  omega

/-- `FetchByte()`. -/
theorem fetchByte_eq (s : State) : fetchByte s =
    (memRead s.pc s,
     { s with pc := s.pc + 1, remaining := s.remaining - 1, trace := s.trace ++ [.read s.pc (memRead s.pc s)] }) := rfl

/-- `FetchWord()`. -/
theorem fetchWord_eq (s : State) : fetchWord s =
    (wordOf (memRead s.pc s) (memRead (s.pc + 1) s),
     { s with
       pc := s.pc + 2
       remaining := s.remaining - 2
       trace := s.trace ++ [.read s.pc (memRead s.pc s), .read (s.pc + 1) (memRead (s.pc + 1) s)] }) := by
  have h : s.remaining - 1 - 1 = s.remaining - 2 := by omega
  simp [fetchWord, fetchByte_eq, memRead, add_one_add_one, h]

/-- `ReadByte(addr)`. -/
theorem readByte_eq (addr : Word) (s : State) : readByte addr s =
    (memRead addr s,
     { s with remaining := s.remaining - 1, trace := s.trace ++ [.read addr (memRead addr s)] }) := rfl

/-- `InternalCycle()`. -/
theorem internalCycle_eq (s : State) :
    internalCycle s = { s with remaining := s.remaining - 1, trace := s.trace ++ [.internal] } := rfl

/-- `WriteWord(addr, w)`. -/
theorem writeWord_eq (addr w : Word) (s : State) : writeWord addr w s =
    { s with
      mem := (s.mem.write addr.toNat (lowByte w)).write (addr + 1).toNat (highByte w)
      remaining := s.remaining - 2
      trace := s.trace ++ [.write addr (lowByte w), .write (addr + 1) (highByte w)] } := by
  simp [writeWord, charge, record, memWrite]

/-- Zero Page after its operand fetch. -/
theorem operandZeroPage_eq (zp : Byte) (s : State) : operandZeroPage zp s =
    (memRead (zeroPageAddr zp) s,
     { s with
       remaining := s.remaining - 1
       trace := s.trace ++ [.read (zeroPageAddr zp) (memRead (zeroPageAddr zp) s)] }) := rfl

/-- Zero Page, X-indexed after its operand fetch. -/
theorem operandZeroPageX_eq (zp : Byte) (s : State) : operandZeroPageX zp s =
    (memRead (zeroPageXAddr zp s.x) s,
     { s with
       remaining := s.remaining - 2
       trace := s.trace ++ [.internal, .read (zeroPageXAddr zp s.x) (memRead (zeroPageXAddr zp s.x) s)] }) := by
  have h : s.remaining - 1 - 1 = s.remaining - 2 := by omega
  simp [operandZeroPageX, internalCycle_eq, readByte_eq, memRead, h]

/-- The effect the three load forms share. -/
theorem loadA_eq (v : Byte) (s : State) : loadA v s = { s with a := v, flags := s.flags.afterLoad v } := rfl

/-- JSR after its target is fetched. -/
theorem jsr_eq (c : Config) (target : Word) (s : State) : jsr c target s =
    { s with
      pc := target
      sp := s.sp + c.spDelta
      mem := (s.mem.write (stackAddr c s).toNat (lowByte (s.pc - 1))).write (stackAddr c s + 1).toNat (highByte (s.pc - 1))
      remaining := s.remaining - 3
      trace := s.trace ++
        [.write (stackAddr c s) (lowByte (s.pc - 1)), .write (stackAddr c s + 1) (highByte (s.pc - 1)), .internal] } := by
  have h : s.remaining - 2 - 1 = s.remaining - 3 := by omega
  simp [jsr, returnAddr, writeWord_eq, internalCycle_eq, setSp, setPc, h]

/-- A memory into which a word was written reads, at every address, as the word's bytes or as before. -/
theorem memRead_two_writes {m : Memory} (addr : Word) (lo hi : Byte) {b : Word} (h0 : b ≠ addr) (h1 : b ≠ addr + 1) :
    ((m.write addr.toNat lo).write (addr + 1).toNat hi).read b.toNat = m.read b.toNat := by
  rw [Memory.read_write_other fun h => h1 (BitVec.eq_of_toNat_eq h),
    Memory.read_write_other fun h => h0 (BitVec.eq_of_toNat_eq h)]

/-- The low byte of a written word reads back at its address. -/
theorem read_low_of_two_writes {m : Memory} (hm : m.wf) (addr : Word) (lo hi : Byte) :
    ((m.write addr.toNat lo).write (addr + 1).toNat hi).read addr.toNat = lo := by
  rw [Memory.read_write_other fun h => add_one_ne addr (BitVec.eq_of_toNat_eq h).symm, Memory.read_write_same hm]

/-- The high byte of a written word reads back at the next address. -/
theorem read_high_of_two_writes {m : Memory} (hm : m.wf) (addr : Word) (lo hi : Byte) :
    ((m.write addr.toNat lo).write (addr + 1).toNat hi).read (addr + 1).toNat = hi :=
  Memory.read_write_same (Memory.write_wf hm addr.isLt lo) _ _

/-- The memory after a word write is canonical. -/
theorem two_writes_wf {m : Memory} (hm : m.wf) (addr : Word) (lo hi : Byte) :
    ((m.write addr.toNat lo).write (addr + 1).toNat hi).wf :=
  Memory.write_wf (Memory.write_wf hm addr.isLt lo) (addr + 1).isLt hi

end Sys2Proof.Machine
end

