-- ==== Sys2Proof/Laws/Step.lean ====
section
/-! SUPPORT. The dispatcher's lookup as a chain of comparisons, and the step: one equation per format, which together say
everything a step can do. -/

namespace Sys2Proof

/-- The table lookup is the chain of comparisons of R98. -/
theorem formatOf_eq (c : Config) (op : Byte) : formatOf c op =
    if op = c.opcLdaIm then .imm else if op = c.opcLdaZp then .zp else if op = c.opcLdaZpx then .zpx
    else if op = c.opcJsr then .abs else .unk := by
  simp only [formatOf, lookupRow, opcodeTable, List.find?, beq_eq_decide, eq_comm (a := op)]
  by_cases h1 : c.opcLdaIm = op <;> by_cases h2 : c.opcLdaZp = op <;> by_cases h3 : c.opcLdaZpx = op <;>
    by_cases h4 : c.opcJsr = op <;> simp [h1, h2, h3, h4]

/-- A byte is unknown exactly where it is none of the four opcodes. -/
theorem formatOf_eq_unk_iff (c : Config) (op : Byte) : formatOf c op = .unk ↔ op ∉ c.opcodes := by
  rw [formatOf_eq]
  simp only [Config.opcodes, List.mem_cons, List.not_mem_nil, or_false]
  split_ifs <;> simp_all

/-- The four opcodes of a valid configuration, each with its format. -/
theorem formatOf_of_valid {c : Config} (h : c.valid) :
    formatOf c c.opcLdaIm = .imm ∧ formatOf c c.opcLdaZp = .zp ∧ formatOf c c.opcLdaZpx = .zpx ∧
      formatOf c c.opcJsr = .abs := by
  have h' := h.1
  simp only [Config.opcodes, List.nodup_cons, List.mem_cons, List.not_mem_nil, or_false, not_or] at h'
  obtain ⟨⟨h12, h13, h14⟩, ⟨h23, h24⟩, h34, -⟩ := h'
  simp [formatOf_eq, Ne.symm h12, Ne.symm h13, Ne.symm h14, Ne.symm h23, Ne.symm h24, Ne.symm h34]

theorem hw_valid : Config.hw.valid := by decide

/-- The opcode byte of a format. -/
theorem opcode_of_format (c : Config) (op : Byte) :
    (formatOf c op = .imm → op = c.opcLdaIm) ∧ (formatOf c op = .zp → op = c.opcLdaZp) ∧
      (formatOf c op = .zpx → op = c.opcLdaZpx) ∧ (formatOf c op = .abs → op = c.opcJsr) := by
  rw [formatOf_eq]
  split_ifs <;> simp_all

/-- Every byte is one of the four opcodes, with its format, or unknown. -/
theorem opcode_cases (c : Config) (op : Byte) :
    (op = c.opcLdaIm ∧ formatOf c op = .imm) ∨ (op = c.opcLdaZp ∧ formatOf c op = .zp) ∨
      (op = c.opcLdaZpx ∧ formatOf c op = .zpx) ∨ (op = c.opcJsr ∧ formatOf c op = .abs) ∨
      (op ∉ c.opcodes ∧ formatOf c op = .unk) := by
  obtain ⟨him, hzp, hzpx, habs⟩ := opcode_of_format c op
  cases hf : formatOf c op
  · exact .inr (.inr (.inr (.inr ⟨(formatOf_eq_unk_iff c op).mp hf, rfl⟩)))
  · exact .inl ⟨him hf, rfl⟩
  · exact .inr (.inl ⟨hzp hf, rfl⟩)
  · exact .inr (.inr (.inl ⟨hzpx hf, rfl⟩))
  · exact .inr (.inr (.inr (.inl ⟨habs hf, rfl⟩)))

namespace Machine

/-- The opcode byte at `PC`, whose format decides what a step does. -/
abbrev opcodeAt (s : State) : Byte := memRead s.pc s

/-- Fetching a whole instruction leaves everything but `PC`, the budget and the bus record. -/
theorem fetchInstr_of_unk {c : Config} {s : State} (h : formatOf c (opcodeAt s) = .unk) : fetchInstr c s =
    (.unknown (opcodeAt s),
     { s with pc := s.pc + 1, remaining := s.remaining - 1, trace := s.trace ++ [.read s.pc (opcodeAt s)] }) := by
  simp only [fetchInstr, fetchByte_eq, h, fetchOperand, Format.operandBytes, Format.build]

/-- One operand byte: the state after both fetches. -/
theorem fetchOperand_one {f : Format} (hf : f.operandBytes = 1) (s : State) : fetchOperand f (fetchByte s).2 =
    (zext16 (memRead (s.pc + 1) s),
     { s with
       pc := s.pc + 2
       remaining := s.remaining - 2
       trace := s.trace ++ [.read s.pc (opcodeAt s), .read (s.pc + 1) (memRead (s.pc + 1) s)] }) := by
  have hr : s.remaining - 1 - 1 = s.remaining - 2 := by omega
  simp [fetchOperand, hf, fetchByte_eq, memRead, add_one_add_one, hr]

/-- Two operand bytes: the state after all three fetches. -/
theorem fetchOperand_two (s : State) : fetchOperand .abs (fetchByte s).2 =
    (wordOf (memRead (s.pc + 1) s) (memRead (s.pc + 2) s),
     { s with
       pc := s.pc + 3
       remaining := s.remaining - 3
       trace := s.trace ++ [.read s.pc (opcodeAt s), .read (s.pc + 1) (memRead (s.pc + 1) s),
         .read (s.pc + 2) (memRead (s.pc + 2) s)] }) := by
  have hr : s.remaining - 1 - 2 = s.remaining - 3 := by omega
  have hp : s.pc + 1#16 + 2#16 = s.pc + 3#16 := by rw [BitVec.add_assoc]; rfl
  simp [fetchOperand, Format.operandBytes, fetchByte_eq, fetchWord_eq, memRead, add_one_add_one, hr, hp]

/-- The fetch of an instruction, by its opcode's format. -/
theorem fetchInstr_eq (c : Config) (s : State) : fetchInstr c s =
    ((formatOf c (opcodeAt s)).build (opcodeAt s) (fetchOperand (formatOf c (opcodeAt s)) (fetchByte s).2).1,
     (fetchOperand (formatOf c (opcodeAt s)) (fetchByte s).2).2) := rfl

theorem step_of_unk {s : State} (h : formatOf Config.hw (opcodeAt s) = .unk) : step s = .next
    { s with
      pc := s.pc + 1
      remaining := s.remaining - 1
      diag := s.diag ++ [opcodeAt s]
      trace := s.trace ++ [.read s.pc (opcodeAt s)] } := by
  simp only [step, fetchInstr_of_unk h, exec, execUnknown, report]

theorem step_of_imm {s : State} (h : formatOf Config.hw (opcodeAt s) = .imm) : step s = .next
    { s with
      pc := s.pc + 2
      a := memRead (s.pc + 1) s
      flags := s.flags.afterLoad (memRead (s.pc + 1) s)
      remaining := s.remaining - 2
      trace := s.trace ++ [.read s.pc (opcodeAt s), .read (s.pc + 1) (memRead (s.pc + 1) s)] } := by
  simp only [step, fetchInstr_eq, h, fetchOperand_one (show Format.imm.operandBytes = 1 from rfl), Format.build, exec,
    execLdaIm, loadA_eq, lowByte_zext16]

theorem step_of_zp {s : State} (h : formatOf Config.hw (opcodeAt s) = .zp) : step s = .next
    { s with
      pc := s.pc + 2
      a := memRead (zeroPageAddr (memRead (s.pc + 1) s)) s
      flags := s.flags.afterLoad (memRead (zeroPageAddr (memRead (s.pc + 1) s)) s)
      remaining := s.remaining - 3
      trace := s.trace ++ [.read s.pc (opcodeAt s), .read (s.pc + 1) (memRead (s.pc + 1) s),
        .read (zeroPageAddr (memRead (s.pc + 1) s)) (memRead (zeroPageAddr (memRead (s.pc + 1) s)) s)] } := by
  have hr : s.remaining - 2 - 1 = s.remaining - 3 := by omega
  simp only [step, fetchInstr_eq, h, fetchOperand_one (show Format.zp.operandBytes = 1 from rfl), Format.build, exec,
    execLdaZp, loadA_eq, operandZeroPage_eq, lowByte_zext16, hr, List.append_assoc, List.cons_append, List.nil_append]
  rfl

theorem step_of_zpx {s : State} (h : formatOf Config.hw (opcodeAt s) = .zpx) : step s = .next
    { s with
      pc := s.pc + 2
      a := memRead (zeroPageXAddr (memRead (s.pc + 1) s) s.x) s
      flags := s.flags.afterLoad (memRead (zeroPageXAddr (memRead (s.pc + 1) s) s.x) s)
      remaining := s.remaining - 4
      trace := s.trace ++ [.read s.pc (opcodeAt s), .read (s.pc + 1) (memRead (s.pc + 1) s), .internal,
        .read (zeroPageXAddr (memRead (s.pc + 1) s) s.x) (memRead (zeroPageXAddr (memRead (s.pc + 1) s) s.x) s)] } := by
  have hr : s.remaining - 2 - 2 = s.remaining - 4 := by omega
  simp only [step, fetchInstr_eq, h, fetchOperand_one (show Format.zpx.operandBytes = 1 from rfl), Format.build, exec,
    execLdaZpx, loadA_eq, operandZeroPageX_eq, lowByte_zext16, hr, List.append_assoc, List.cons_append, List.nil_append]
  rfl

theorem step_of_abs {s : State} (h : formatOf Config.hw (opcodeAt s) = .abs) : step s = .next
    { s with
      pc := wordOf (memRead (s.pc + 1) s) (memRead (s.pc + 2) s)
      sp := s.sp + Config.hw.spDelta
      mem := (s.mem.write (stackAddr Config.hw s).toNat (lowByte (s.pc + 2))).write
        (stackAddr Config.hw s + 1).toNat (highByte (s.pc + 2))
      remaining := s.remaining - 6
      trace := s.trace ++ [.read s.pc (opcodeAt s), .read (s.pc + 1) (memRead (s.pc + 1) s),
        .read (s.pc + 2) (memRead (s.pc + 2) s), .write (stackAddr Config.hw s) (lowByte (s.pc + 2)),
        .write (stackAddr Config.hw s + 1) (highByte (s.pc + 2)), .internal] } := by
  have hr : s.remaining - 3 - 3 = s.remaining - 6 := by omega
  have hp : s.pc + 3 - 1 = s.pc + 2 := by
    rw [BitVec.sub_eq_add_neg, BitVec.add_assoc]; rfl
  simp only [step, fetchInstr_eq, h, fetchOperand_two, Format.build, exec, execJsr, jsr_eq, stackAddr, hr, hp,
    List.append_assoc, List.cons_append, List.nil_append]

end Machine
end Sys2Proof
end

