-- ==== Sys2Proof/Laws/Loop.lean ====
section
/-! SUPPORT. The loop of `execute`: how it stops and how it goes on, what one step charges, and what holds of two runs
put together. -/

namespace Sys2Proof.Machine

/-- What every step does to the budget: it charges 1 to 6 cycles and leaves the request as it is. -/
theorem step_charges (s : State) : ∃ t, step s = .next t ∧ t.requested = s.requested ∧
    s.remaining - 6 ≤ t.remaining ∧ t.remaining ≤ s.remaining - 1 := by
  cases h : formatOf Config.hw (opcodeAt s)
  · exact ⟨_, step_of_unk h, rfl, by simp only; omega, by simp only; omega⟩
  · exact ⟨_, step_of_imm h, rfl, by simp only; omega, by simp only; omega⟩
  · exact ⟨_, step_of_zp h, rfl, by simp only; omega, by simp only; omega⟩
  · exact ⟨_, step_of_zpx h, rfl, by simp only; omega, by simp only; omega⟩
  · exact ⟨_, step_of_abs h, rfl, by simp only; omega, by simp only; omega⟩

/-- The loop stops where the budget is used up. -/
theorem budgetLoop_stop (stp : State → Host.Outcome State Fault Refusal) (fuel : Nat) {s : State}
    (h : ¬ 0 < s.remaining) : budgetLoop stp fuel s = .next s := by
  cases fuel <;> simp [budgetLoop, h]

/-- The loop goes on with the state after a step. -/
theorem budgetLoop_go {stp : State → Host.Outcome State Fault Refusal} (fuel : Nat) {s t : State}
    (h : 0 < s.remaining) (hs : stp s = .next t) : budgetLoop stp (fuel + 1) s = budgetLoop stp fuel t := by
  simp [budgetLoop, h, hs]

/-- Where every step answers, so does the loop; and a property that the steps taken keep holds at its end. -/
theorem budgetLoop_keeps {stp : State → Host.Outcome State Fault Refusal} {P : State → Prop}
    (hstp : ∀ s, P s → 0 < s.remaining → ∃ t, stp s = .next t ∧ P t) (fuel : Nat) {s : State} (hs : P s) :
    ∃ t, budgetLoop stp fuel s = .next t ∧ P t := by
  induction fuel generalizing s with
  | zero => exact ⟨s, rfl, hs⟩
  | succ fuel ih =>
    by_cases h : 0 < s.remaining
    · obtain ⟨t, ht, hPt⟩ := hstp s hs h
      rw [budgetLoop_go fuel h ht]
      exact ih hPt
    · exact ⟨s, budgetLoop_stop stp _ h, hs⟩

/-- With fuel for the whole budget the loop ends because the budget is used up, after steps it allowed. -/
theorem budgetLoop_reaches (fuel : Nat) {s : State} (h : s.remaining ≤ fuel) :
    ∃ k t, budgetLoop step fuel s = .next t ∧ Reaches k s t ∧ t.remaining ≤ 0 := by
  induction fuel generalizing s with
  | zero => exact ⟨0, s, rfl, rfl, by exact_mod_cast h⟩
  | succ fuel ih =>
    by_cases hp : 0 < s.remaining
    · obtain ⟨u, hu, -, -, hle⟩ := step_charges s
      obtain ⟨k, t, ht, hr, h0⟩ := ih (s := u) (by omega)
      exact ⟨k + 1, t, by rw [budgetLoop_go fuel hp hu, ht], ⟨hp, u, hu, hr⟩, h0⟩
    · exact ⟨0, s, budgetLoop_stop step _ hp, rfl, by omega⟩

/-- Where the budget allows no step, a run has none. -/
theorem reaches_of_spent {k : Nat} {s t : State} (h : s.remaining ≤ 0) (hr : Reaches k s t) : k = 0 ∧ t = s := by
  cases k with
  | zero => exact ⟨rfl, hr.symm⟩
  | succ k => exact absurd hr.1 (by omega)

/-- A run to a used-up budget has only one end. -/
theorem reaches_end_unique {k j : Nat} {s t u : State} (ht : Reaches k s t) (h0 : t.remaining ≤ 0)
    (hu : Reaches j s u) (h0' : u.remaining ≤ 0) : t = u := by
  induction k generalizing j s with
  | zero =>
    subst ht
    exact (reaches_of_spent h0 hu).2.symm
  | succ k ih =>
    obtain ⟨hp, v, hv, hvt⟩ := ht
    cases j with
    | zero =>
      subst hu
      omega
    | succ j =>
      obtain ⟨-, w, hw, hwu⟩ := hu
      obtain rfl : v = w := by simpa [hv] using hw
      exact ih hvt hwu

end Sys2Proof.Machine
end

