-- ==== Sys2Proof/Laws/Operands.lean ====
section
/-! SUPPORT. The effective addresses and the flags after a load, said over numbers. -/

namespace Sys2Proof.Machine

/-- Zero Page: the byte itself. -/
theorem zeroPageAddr_eq (zp : Byte) : zeroPageAddr zp = BitVec.ofNat 16 zp.toNat := by
  apply BitVec.eq_of_toNat_eq
  have := zp.isLt
  simp [zeroPageAddr]
  omega

/-- Zero Page, X-indexed: the sum modulo 256. -/
theorem zeroPageXAddr_eq (zp x : Byte) : zeroPageXAddr zp x = BitVec.ofNat 16 ((zp.toNat + x.toNat) % 256) := by
  apply BitVec.eq_of_toNat_eq
  simp [zeroPageXAddr, BitVec.toNat_add]
  omega

/-- `Z` where the value is 0, `N` where it is 128 or more. -/
theorem Flags.afterLoad_eq (f : Flags) (v : Byte) :
    f.afterLoad v = { f with z := decide (v.toNat = 0), n := decide (128 ≤ v.toNat) } := by
  have hz : (v == 0x00#8) = decide (v.toNat = 0) := by
    rw [beq_eq_decide]
    congr 1
    rw [← BitVec.toNat_inj]
    simp
  have hn : v.getLsbD 7 = decide (128 ≤ v.toNat) := by
    simpa [BitVec.msb, BitVec.getMsbD] using BitVec.msb_eq_decide v
  unfold Flags.afterLoad
  rw [hz, hn]

end Sys2Proof.Machine
end

