-- ==== Sys2Proof/Laws/PerInstr.lean ====
section
/-! SUPPORT. Per instruction: its encoding is as long as its format says, and the opcode byte alone tells the format
(R50, R51). -/

namespace Sys2Proof.Laws.LengthByOpcode

/-- The encoding of a well-formed instruction starts with a byte that selects the instruction's own format, and has as
many bytes as that format. -/
def Statement (i : Instr) : Prop :=
  ∀ c : Config, c.valid → i.wf c = true →
    ∃ op bytes, encodeWith c i = op :: bytes ∧ formatOf c op = i.format ∧ bytes.length = i.format.operandBytes

theorem ldaIm (imm : Byte) : Statement (.ldaIm imm) := fun _ h _ => ⟨_, _, rfl, (formatOf_of_valid h).1, rfl⟩

theorem ldaZp (zp : Byte) : Statement (.ldaZp zp) := fun _ h _ => ⟨_, _, rfl, (formatOf_of_valid h).2.1, rfl⟩

theorem ldaZpx (zp : Byte) : Statement (.ldaZpx zp) := fun _ h _ => ⟨_, _, rfl, (formatOf_of_valid h).2.2.1, rfl⟩

theorem jsr (target : Word) : Statement (.jsr target) := fun _ h _ => ⟨_, _, rfl, (formatOf_of_valid h).2.2.2, rfl⟩

theorem unknown (opcode : Byte) : Statement (.unknown opcode) := fun c _ hw =>
  ⟨_, _, rfl, (formatOf_eq_unk_iff c opcode).mpr (by simpa [Instr.wf] using hw), rfl⟩

end Sys2Proof.Laws.LengthByOpcode
end

