-- ==== Sys2Proof/Laws/Pseudocode.lean ====
section
/-! SUPPORT. The pseudocode's dispatch by the format of the opcode byte, and its JSR by the shared operation. -/

namespace Sys2Proof.Machine

/-- The dispatch on the byte is the dispatch on its format. -/
theorem dispatchWith_eq (c : Config) (op : Byte) (s : State) : dispatchWith c op s =
    match formatOf c op with
    | .imm => pseudoLdaImmediate s
    | .zp => pseudoLdaZeroPage s
    | .zpx => pseudoLdaZeroPageX s
    | .abs => pseudoJsrAbsolute c s
    | .unk => report op s := by
  rw [formatOf_eq, dispatchWith]
  split_ifs <;> rfl

/-- One pseudocode step. -/
theorem stepWith_eq (c : Config) (s : State) : stepWith c s = dispatchWith c (opcodeAt s) (fetchByte s).2 := rfl

/-- A JSR step at any configuration is the shared operation after the fetch of the whole instruction. -/
theorem stepWith_of_abs {c : Config} {s : State} (h : formatOf c (opcodeAt s) = .abs) : stepWith c s =
    jsr c (fetchOperand .abs (fetchByte s).2).1 (fetchOperand .abs (fetchByte s).2).2 := by
  rw [stepWith_eq, dispatchWith_eq, h]
  rfl

end Sys2Proof.Machine
end

