-- ==== Sys2Proof/Machine/Assembler.lean ====
section
/-! DEFINITION. The assembler form of an instruction (R58): notation, used by no step. The byte-list form is the
encoder's. -/

namespace Sys2Proof

/-- One hexadecimal digit. -/
def hexDigit (n : Nat) : Char := "0123456789ABCDEF".toList.getD n '?'

/-- A byte as two hexadecimal digits. -/
def hexByte (b : Byte) : String := String.ofList [hexDigit (b.toNat / 16), hexDigit (b.toNat % 16)]

/-- The conventional form of R58 (PRESUMED, decision D15; log 26). -/
def Instr.assembler : Instr → String
  | .ldaIm imm => "LDA #$" ++ hexByte imm
  | .ldaZp zp => "LDA $" ++ hexByte zp
  | .ldaZpx zp => "LDA $" ++ hexByte zp ++ ",X"
  | .jsr target => "JSR $" ++ hexByte (highByte target) ++ hexByte (lowByte target)
  | .unknown op => ".byte $" ++ hexByte op

end Sys2Proof
end

