-- ==== Sys2Proof/Tests/Slice0.lean ====
section
/-! SUPPORT. The model's own tests, and for every obligation with hypotheses a witness that meets them. Expected results
come from the spec: the worked examples S1 to S8 and the vectors of 95_test_vectors.md, and words written out from
30_encoding.md rules R51 and R53. -/

open Sys2Proof Sys2Proof.Machine

namespace Sys2Proof.Tests

/-- The state an outcome goes on with. -/
def nextOf (o : Host.Outcome State Fault Refusal) : Option State :=
  match o with
  | .next t => some t
  | .fault _ => none
  | .refused _ => none

/-- The reset state with bytes loaded at the reset address, as every vector starts. -/
def loaded (bytes : List Byte) : State := placeBytes 0xFFFC bytes State.reset

/-- A state with bytes loaded at an address of choice and `PC` there. -/
def loadedAt (addr : Word) (bytes : List Byte) : State := setPc addr (placeBytes addr bytes State.reset)

/-- The parameters of this hardware at a `STACK_BASE` and an `SP_DELTA` of choice. -/
def configAt (base : Word) (delta : Byte) : Config := { Config.hw with stackBase := base, spDelta := delta }

def allFlags (b : Bool) : Flags := ⟨b, b, b, b, b, b, b⟩

/-! ### WellFormed: the one check, with an ill-formed term -/

theorem test_wf_refuses_known_opcode_as_unknown : (Instr.unknown 0xA9).wf Config.hw = false := by decide
theorem test_wf_accepts_unknown_opcode : (Instr.unknown 0x60).wf Config.hw = true := by decide
theorem test_valid_refuses_equal_opcodes : ¬ { Config.hw with opcJsr := 0xA9 }.valid := by decide
theorem test_valid_refuses_opcode_one : ¬ { Config.hw with opcJsr := 0x01 }.valid := by decide

/-! ### Decoding: words written out from R51 and R53 -/

theorem test_decode_ldaIm : decode [0b10101001, 0b01000010] = .ok (.ldaIm 0x42, []) := by decide
theorem test_decode_ldaZp : decode [0b10100101, 0b01000010] = .ok (.ldaZp 0x42, []) := by decide
theorem test_decode_ldaZpx : decode [0b10110101, 0b10000000] = .ok (.ldaZpx 0x80, []) := by decide
theorem test_decode_jsr : decode [0b00100000, 0b00110100, 0b00010010] = .ok (.jsr 0x1234, []) := by decide
theorem test_decode_unknown : decode [0b00000001, 0xA9] = .ok (.unknown 0x01, [0xA9]) := by decide
theorem test_decode_empty_refused : decode [] = .error .noOpcode := by decide
theorem test_decode_truncated_refused : decode [0x20, 0x34] = .error .missingOperand := by decide
theorem test_encode_jsr : encode (.jsr 0x1234) = [0x20, 0x34, 0x12] := by decide
theorem test_decodeTableWord_jsr : decodeTableWord 24 0x123420 = some (.jsr 0x1234) := by decide
theorem test_decodeTableWord_short : decodeTableWord 8 0xB5 = some (.ldaZpx 0x00) := by decide
theorem test_withFetchWord_runs_it :
    (nextOf (step (State.reset.withFetchWord 16 0x42A9))).map (·.a) = some 0x42 := by decide

/-- The table of R58. -/
theorem test_assembler_R58 :
    [Instr.ldaIm 0x42, .ldaZp 0x42, .ldaZpx 0x80, .jsr 0x1234, .unknown 0x01].map Instr.assembler =
      ["LDA #$42", "LDA $42", "LDA $80,X", "JSR $1234", ".byte $01"] := by decide

/-! ### LDA immediate: S3, and 2.1 with the wrap of `PC` -/

theorem test_ldaIm_S3 : nextOf (execute 2 (loaded [0xA9, 0x42])) = some
    { loaded [0xA9, 0x42] with
      pc := 0xFFFE, a := 0x42, requested := 2, remaining := 0, trace := [.read 0xFFFC 0xA9, .read 0xFFFD 0x42] } := by
  decide
theorem test_ldaIm_I_wrap : (nextOf (execute 1 (loadedAt 0xFFFF [0xA9, 0x80]))).map
    (fun t => (t.a, t.pc, t.flags.n, t.flags.z, t.remaining, consumed t)) = some (0x80, 0x0001, true, false, -1, 2) := by
  decide

/-! ### LDA zero page: S4, and 2.2's data read of the instruction's own operand -/

theorem test_ldaZp_S4 : (nextOf (execute 3 (memWrite 0x0042 0x84 (loaded [0xA5, 0x42])))).map
    (fun t => (t.a, t.pc, t.flags.n, t.flags.z, consumed t)) = some (0x84, 0xFFFE, true, false, 3) := by decide
theorem test_ldaZp_own_operand : (nextOf (step (loadedAt 0x0010 [0xA5, 0x11]))).map (fun t => (t.a, t.trace)) =
    some (0x11, [.read 0x0010 0xA5, .read 0x0011 0x11, .read 0x0011 0x11]) := by decide

/-! ### LDA zero page,X: S5 (with cell 0x017F set to tell the two readings apart), and 2.3's row FF/01 -/

theorem test_ldaZpx_S5 : (nextOf (execute 4
      { memWrite 0x017F 0xEE (memWrite 0x007F 0x37 (loaded [0xB5, 0x80])) with x := 0xFF })).map
    (fun t => (t.a, t.x, t.pc, t.trace)) = some (0x37, 0xFF, 0xFFFE,
      [.read 0xFFFC 0xB5, .read 0xFFFD 0x80, .internal, .read 0x007F 0x37]) := by decide
theorem test_ldaZpx_wraps_to_cell_zero : (nextOf (step
      { memWrite 0x0100 0xEE (memWrite 0x0000 0x80 (loaded [0xB5, 0xFF])) with x := 0x01 })).map
    (fun t => (t.a, t.flags.z, t.flags.n)) = some (0x80, false, true) := by decide

/-! ### The flag rule: 2.1 with every flag set before, and S7 -/

theorem test_flags_of_loaded_values :
    [0x00#8, 0x01#8, 0x42#8, 0x7F#8, 0x80#8, 0xFF#8].map (fun v => (allFlags true).afterLoad v) =
      [⟨true, true, true, true, true, true, false⟩, ⟨true, false, true, true, true, true, false⟩,
       ⟨true, false, true, true, true, true, false⟩, ⟨true, false, true, true, true, true, false⟩,
       ⟨true, false, true, true, true, true, true⟩, ⟨true, false, true, true, true, true, true⟩] := by decide
theorem test_zero_flag_S7 : (nextOf (step { loaded [0xB5, 0x42] with a := 0x55, x := 0x03 })).map
    (fun t => (t.a, t.flags.z, t.flags.n)) = some (0x00, true, false) := by decide

/-! ### JSR: J1; J1 at each row of its parameter table, J2 and J4 of 2.4 (at named values of `SP_DELTA`) -/

theorem test_jsr_J1 : (nextOf (execute 6 (loaded [0x20, 0x42, 0x42]))).map
    (fun t => (t.pc, t.mem, t.trace)) = some (0x4242,
      [(0x0000, 0xFE), (0x0001, 0xFF), (0xFFFC, 0x20), (0xFFFD, 0x42), (0xFFFE, 0x42)],
      [.read 0xFFFC 0x20, .read 0xFFFD 0x42, .read 0xFFFE 0x42, .write 0x0000 0xFE, .write 0x0001 0xFF, .internal]) := by
  decide
theorem test_jsr_named_parameters :
    ([configAt 0x0000 0x02, configAt 0x0000 0x00, configAt 0x0000 0xFE, configAt 0x0100 0x02].map (fun c =>
      let t := stepWith c (loaded [0x20, 0x42, 0x42])
      (t.sp, memRead c.stackBase t, memRead (c.stackBase + 1) t)) =
        [(0x02, 0xFE, 0xFF), (0x00, 0xFE, 0xFF), (0xFE, 0xFE, 0xFF), (0x02, 0xFE, 0xFF)]) ∧
    (let t := stepWith (configAt 0 2) (setSp 0x40 (loadedAt 0xFFFD [0x20, 0x34, 0x12]));
      (t.pc, t.sp, memRead 0x0040 t, memRead 0x0041 t) = (0x1234, 0x42, 0xFF, 0xFF)) ∧
    (let t := stepWith (configAt 0 2) (setSp 0xFF (loadedAt 0x0200 [0x20, 0xCD, 0xAB]));
      (t.pc, t.sp, memRead 0x00FF t, memRead 0x0100 t) = (0xABCD, 0x01, 0x02, 0x02)) := by decide

/-! ### Unknown opcode: S6, and 2.5 at a byte of each kind -/

theorem test_unknown_S6 : (nextOf (execute 2 (loaded [0x01, 0x01]))).map
    (fun t => (t.pc, t.diag, t.a, t.flags, consumed t)) = some (0xFFFE, [0x01, 0x01], 0x00, allFlags false, 2) := by decide
theorem test_unknown_2_5 :
    [0x00#8, 0xFF#8, 0xA8#8, 0xAA#8, 0x21#8, 0x60#8, 0xA1#8, 0xAD#8, 0xB1#8, 0xB9#8, 0xBD#8].all (fun b =>
      nextOf (execute 1 (loadedAt 0x1000 [b])) == some
        { loadedAt 0x1000 [b] with
          pc := 0x1001, requested := 1, remaining := 0, diag := [b], trace := [.read 0x1000 b] }) = true := by decide

/-! ### Reset, `execute` and host access: S1, S2, L4, L6 -/

theorem test_reset_S1 : resetCommand { State.reset with
      pc := 0x1234, sp := 0x56, a := 0x78, x := 0x9A, y := 0xBC, flags := allFlags true,
      mem := [(0x0000, 0xFF), (0xFFFC, 0xA9), (0xFFFF, 0x01)], diag := [0x07] } =
    { State.reset with diag := [0x07] } := by decide
theorem test_execute_zero_S2 : nextOf (execute 0 (loaded [0xA9, 0x42])) = some (loaded [0xA9, 0x42]) := by decide
theorem test_execute_negative_L4 : (nextOf (execute (-5) (loaded [0xA9, 0x42]))).map
    (fun t => (t.pc, t.a, t.mem == (loaded [0xA9, 0x42]).mem, consumed t)) = some (0xFFFC, 0x00, true, 0) := by decide
theorem test_session_L6 :
    (match runCommands [.writeCell 0xFFFC 0xA9, .writeCell 0xFFFD 0x42, .execute 2, .writeCell 0xFFFE 0xA9,
        .writeCell 0xFFFF 0x80, .execute 2, .readA, .readPc, .readFlag .n] State.reset with
      | .next (_, rs) => some rs
      | .fault _ => none
      | .refused _ => none) =
    some [.done, .done, .cyclesConsumed 2, .done, .done, .cyclesConsumed 2, .byte 0x80, .word 0x0000, .bit true] := by
  decide

/-! ### Witnesses: a concrete state and operands for the hypotheses of each obligation -/

theorem witness_DecodeOfEncodeGivesTheInstructionBack : Config.hw.valid ∧ (Instr.unknown 0xFF).wf Config.hw = true ∧
    (Instr.jsr 0xFFFF).wf Config.hw = true ∧ (Instr.ldaIm 0xFF).wf Config.hw = true ∧
    (Instr.ldaZp 0x00).wf Config.hw = true ∧ (Instr.ldaZpx 0xFF).wf Config.hw = true := by decide
theorem witness_EncodeOfDecodeGivesTheBytesBack :
    decodeWith Config.hw [0x20, 0xFF, 0x00, 0x07] = .ok (.jsr 0x00FF, [0x07]) := by decide
theorem witness_EveryByteDecodesAndEveryOperandIsLegal : Config.hw.valid ∧ (0xFF#8) ∉ Config.hw.opcodes := by decide
theorem witness_OpcodeByteAloneTellsTheLength : decodeWith Config.hw [0xA5, 0x00] = .ok (.ldaZp 0x00, []) ∧
    decodeWith Config.hw [0xA5, 0xFF, 0x01] = .ok (.ldaZp 0xFF, [0x01]) := by decide
theorem witness_LoadsSetZeroAndNegativeFromTheAccumulator : (Instr.ldaIm 0x7F).format = .imm ∧
    (Instr.ldaZp 0x00).format = .zp ∧ (Instr.ldaZpx 0xFF).format = .zpx ∧
    [0x00#8, 0x01#8, 0x7F#8, 0x80#8, 0xFF#8].map (fun v =>
      (nextOf (exec (.ldaIm v) State.reset)).map fun t => t.a.toNat) = [some 0, some 1, some 0x7F, some 0x80, some 0xFF] := by
  decide
theorem witness_JsrSavesTheReturnAddressAndJumps : State.reset.Inv ∧
    (0x0002#16) ≠ stackAddr Config.hw State.reset ∧ (0x0002#16) ≠ stackAddr Config.hw State.reset + 1 := by decide
theorem witness_StepRunsTheDecodedInstruction :
    let read3 := fun s : State => decode [memRead s.pc s, memRead (s.pc + 1) s, memRead (s.pc + 2) s]
    read3 (loadedAt 0xFFFE [0x20, 0x00, 0x80]) = .ok (.jsr 0x8000, []) ∧
    read3 (loaded [0xA9, 0x42]) = .ok (.ldaIm 0x42, [0x00]) ∧ read3 (loaded [0xA5, 0x42]) = .ok (.ldaZp 0x42, [0x00]) ∧
    read3 (loaded [0xB5, 0x80]) = .ok (.ldaZpx 0x80, [0x00]) ∧
    read3 State.reset = .ok (.unknown 0x00, [0x00, 0x00]) := by decide

/-- One state for each of the five cases an opcode byte can fall in: the hypotheses of StepOnLdaImmediate,
StepOnLdaZeroPage, StepOnLdaZeroPageX, StepOnUnknownOpcode and each clause of OnlyLoadsWriteFlagsAndOnlyZeroAndNegative,
OnlyLoadsWriteAAndOnlyJsrWritesSp, OnlyJsrChangesPcOtherThanByFetching, OnlyJsrWritesMemory,
DiagnosticsEventsAreTheUnknownOpcodesFetched, StepChargesTheBaseCycleCost and BusTransactionsOfAStepInOrder. -/
theorem witness_opcode_cases :
    memRead (loadedAt 0xFFFF [0xA9]).pc (loadedAt 0xFFFF [0xA9]) = Config.hw.opcLdaIm ∧
    memRead (loaded [0xA5, 0x42]).pc (loaded [0xA5, 0x42]) = Config.hw.opcLdaZp ∧
    memRead (loaded [0xB5, 0x80]).pc (loaded [0xB5, 0x80]) = Config.hw.opcLdaZpx ∧
    memRead (loaded [0x20, 0x42, 0x42]).pc (loaded [0x20, 0x42, 0x42]) = Config.hw.opcJsr ∧
    memRead State.reset.pc State.reset ∉ Config.hw.opcodes := by decide
theorem witness_StepOnLdaImmediate :
    memRead (loadedAt 0xFFFF [0xA9]).pc (loadedAt 0xFFFF [0xA9]) = Config.hw.opcLdaIm := by decide
theorem witness_StepOnLdaZeroPage : let s := loaded [0xA5, 0xFF]
    memRead s.pc s = Config.hw.opcLdaZp ∧ (0x00#8) = memRead (BitVec.ofNat 16 (memRead (s.pc + 1) s).toNat) s := by decide
theorem witness_StepOnLdaZeroPageX : let s : State := { memWrite 0x007F 0x37 (loaded [0xB5, 0x80]) with x := 0xFF }
    memRead s.pc s = Config.hw.opcLdaZpx ∧
    (0x37#8) = memRead (BitVec.ofNat 16 (((memRead (s.pc + 1) s).toNat + s.x.toNat) % 256)) s := by decide
theorem witness_StepOnUnknownOpcode : memRead State.reset.pc State.reset ∉ Config.hw.opcodes := by decide
theorem witness_JsrStepAtEveryConfiguration : let s := setSp 0xFF (loadedAt 0x0200 [0x20, 0xCD, 0xAB])
    (configAt 0x0100 0x02).valid ∧ s.Inv ∧ memRead s.pc s = (configAt 0x0100 0x02).opcJsr ∧
    (0x0300#16) ≠ (configAt 0x0100 0x02).stackBase + zext16 s.sp ∧
    (0x0300#16) ≠ (configAt 0x0100 0x02).stackBase + zext16 s.sp + 1 := by decide
theorem witness_OnlyLoadsWriteFlagsAndOnlyZeroAndNegative : let s := loaded [0x20, 0x42, 0x42]
    memRead s.pc s ∉ [Config.hw.opcLdaIm, Config.hw.opcLdaZp, Config.hw.opcLdaZpx] := by decide
theorem witness_OnlyLoadsWriteAAndOnlyJsrWritesSp :
    memRead State.reset.pc State.reset ∉ [Config.hw.opcLdaIm, Config.hw.opcLdaZp, Config.hw.opcLdaZpx] ∧
    memRead State.reset.pc State.reset ≠ Config.hw.opcJsr := by decide
theorem witness_OnlyJsrChangesPcOtherThanByFetching : let s := loaded [0x20, 0x42, 0x42]
    memRead s.pc s = Config.hw.opcJsr ∧ memRead State.reset.pc State.reset ≠ Config.hw.opcJsr := by decide
theorem witness_OnlyJsrWritesMemory : let s := loaded [0x20, 0x42, 0x42]
    memRead s.pc s = Config.hw.opcJsr ∧ (0x0002#16) ≠ stackAddr Config.hw s ∧
    (0x0002#16) ≠ stackAddr Config.hw s + 1 ∧ memRead State.reset.pc State.reset ≠ Config.hw.opcJsr := by decide
theorem witness_DiagnosticsEventsAreTheUnknownOpcodesFetched :
    memRead State.reset.pc State.reset ∉ Config.hw.opcodes ∧
    memRead (loaded [0xA9]).pc (loaded [0xA9]) ∈ Config.hw.opcodes ∧ (nextOf (step State.reset)).isSome = true := by decide
theorem witness_NoInstructionReadsInertState : let s := loaded [0xA9, 0x42]
    memRead s.pc s ∈ [Config.hw.opcLdaIm, Config.hw.opcLdaZp, Config.hw.opcLdaZpx] := by decide
theorem witness_BusTransactionsOfAStepInOrder : let s := loaded [0x20, 0x34, 0x12]
    (0x34#8) = memRead (s.pc + 1) s ∧ (0x12#8) = memRead (s.pc + 2) s ∧ memRead s.pc s = Config.hw.opcJsr := by decide
theorem witness_RawWriteChangesExactlyOneCell : (loaded [0xA9, 0x42]).Inv ∧ (0xFFFF#16) ≠ 0x0000#16 := by decide
theorem witness_WrittenWordIsFetchedBack : (loaded [0xA9, 0x42]).Inv := by decide
theorem witness_NextStepFetchesWhatJsrWrote : let s := setSp 0x10 (loadedAt 0x42A7 [0x20, 0x10, 0x00])
    s.Inv ∧ memRead s.pc s = Config.hw.opcJsr ∧
    wordOf (memRead (s.pc + 1) s) (memRead (s.pc + 2) s) = stackAddr Config.hw s ∧ (nextOf (step s)).isSome = true := by decide
theorem witness_NestedJsrsSaveSideBySideAtSpDeltaTwo :
    let s := placeBytes 0x2000 [0x20, 0x00, 0x30] (loaded [0x20, 0x00, 0x20])
    let c := configAt 0x0000 0x02
    c.valid ∧ c.spDelta = 2 ∧ s.Inv ∧ s.sp.toNat ≤ 0xFD ∧ memRead s.pc s = c.opcJsr ∧
    memRead (stepWith c s).pc (stepWith c s) = c.opcJsr := by decide
theorem witness_MemoriesThatReadAlikeAreEqual : let m : Memory := [(0x0000, 0xFE), (0xFFFF, 0x01)]
    m.wf ∧ ∀ addr : Word, m.read addr.toNat = m.read addr.toNat := ⟨by decide, fun _ => rfl⟩
theorem witness_EveryStepKeepsMemoryCanonical : (loaded [0x20, 0x42, 0x42]).Inv ∧
    (nextOf (step (loaded [0x20, 0x42, 0x42]))).isSome = true := by decide
theorem witness_EveryCommandKeepsMemoryCanonical : ∃ t r, (loaded [0xA9, 0x42]).Inv ∧
    (Command.execute 2).run (loaded [0xA9, 0x42]) = .next (t, r) := ⟨_, _, by decide, rfl⟩
theorem witness_AllowedStepKeepsTheBudgetBounds : let s := beginExecute 1 (loaded [0x20, 0x42, 0x42])
    0 < s.remaining ∧ s.BudgetOk ∧ (nextOf (step s)).map (·.remaining) = some (-5) := by decide
theorem witness_ExecuteIsTheBudgetLoop : ∃ t, (Command.execute 2).run (loaded [0xA9, 0x42]) =
    .next (t, .cyclesConsumed 2) ∧ Reaches 1 { loaded [0xA9, 0x42] with requested := 2, remaining := 2 } t ∧
    ¬ 0 < t.remaining := ⟨_, rfl, ⟨by decide, _, rfl, rfl⟩, by decide⟩
theorem witness_ExecuteEndsWithinFiveCyclesOfTheRequest : (0 : Int) ≤ 1 ∧
    (nextOf (execute 1 (loaded [0x20, 0x42, 0x42]))).map consumed = some 6 := by decide
theorem witness_ExecuteRunsAtMostAsManyStepsAsRequested : ∃ t,
    Reaches 1 { State.reset with requested := 1, remaining := 1 } t := ⟨_, by decide, _, rfl, rfl⟩
theorem witness_ExecuteOfANegativeRequestDoesNothing : (-5 : Int) < 0 := by decide
theorem witness_HostWriteOfARegisterChangesOnlyIt : Flag.z ≠ Flag.n := by decide
theorem witness_HostWriteOfACellIsReadBack : State.reset.Inv ∧ (0x0000#16) ≠ 0xFFFF#16 := by decide

end Sys2Proof.Tests
end

section
/-! The canonical form of memory is kept by every step, so by `execute`, so by every command of the host (R5, R30), and
a machine before its first reset has it (R25). -/

namespace Sys2Proof.Machine

/-- A memory with no listed cell, as at power-up and after reset, is canonical (R23, R25). -/
theorem Memory.wf_nil : Memory.wf [] := ⟨.nil, by simp⟩

/-- One step answers and keeps memory canonical: only JSR writes memory, and its two writes keep the form. -/
theorem step_keeps_inv {s : State} (h : s.Inv) : ∃ t, step s = .next t ∧ t.Inv := by
  cases hf : formatOf Config.hw (opcodeAt s) with
  | unk => exact ⟨_, step_of_unk hf, h⟩
  | imm => exact ⟨_, step_of_imm hf, h⟩
  | zp => exact ⟨_, step_of_zp hf, h⟩
  | zpx => exact ⟨_, step_of_zpx hf, h⟩
  | abs => exact ⟨_, step_of_abs hf, two_writes_wf h _ _ _⟩

/-- `execute` answers and keeps memory canonical, because its steps do and setting the budget touches no memory. -/
theorem execute_keeps_inv (n : Int) {s : State} (h : s.Inv) : ∃ t, execute n s = .next t ∧ t.Inv :=
  budgetLoop_keeps (P := State.Inv) (fun _ hs _ => step_keeps_inv hs) n.toNat (s := beginExecute n s) h

/-- Every host command answers and keeps memory canonical. Reset empties memory, `execute` and the write of a cell keep
the form, and no other command touches memory. -/
theorem Command.run_keeps_inv (k : Command) {s : State} (h : s.Inv) : ∃ t r, k.run s = .next (t, r) ∧ t.Inv := by
  cases k with
  | reset => exact ⟨_, _, rfl, Memory.wf_nil⟩
  | execute n =>
    obtain ⟨t, ht, hInv⟩ := execute_keeps_inv n h
    exact ⟨t, .cyclesConsumed (consumed t), by simp only [Command.run, ht], hInv⟩
  | writeCell addr v => exact ⟨_, _, rfl, memWrite_wf h addr v⟩
  | readPc | readSp | readA | readX | readY | readFlag _ | readCell _
  | writePc _ | writeSp _ | writeA _ | writeX _ | writeY _ | writeFlag _ _ => exact ⟨_, _, rfl, h⟩

/-- Settles O41: a command has only one answer, and the one `Command.run_keeps_inv` gives is canonical; the power-up
memory lists no cell. -/
theorem everyCommandKeepsMemoryCanonical : Obligations.EveryCommandKeepsMemoryCanonical := by
  refine ⟨fun k s t r hs hrun => ?_, fun _ => Memory.wf_nil⟩
  obtain ⟨t', r', hrun', hInv⟩ := k.run_keeps_inv hs
  obtain ⟨rfl, rfl⟩ : t' = t ∧ r' = r := by simpa [hrun'] using hrun
  exact hInv

end Sys2Proof.Machine
end

section
/-! The kinds of step: a load, a JSR, an unknown opcode. What each one writes (R11 to R16), and that no kind reads what
has no use (R10, R16, R18). -/

namespace Sys2Proof

/-- An assembled word is its low byte plus 256 times its high byte (R52). -/
theorem wordOf_toNat (lo hi : Byte) : (wordOf lo hi).toNat = lo.toNat + 256 * hi.toNat := by
  have hlo := lo.isLt
  have hhi := hi.isLt
  have hshift : (hi.toNat <<< 8) % 65536 = hi.toNat <<< 8 :=
    Nat.mod_eq_of_lt (by rw [Nat.shiftLeft_eq]; omega)
  calc (wordOf lo hi).toNat
      = hi.toNat <<< 8 ||| lo.toNat := by simp [wordOf, hshift, Nat.or_comm]
    _ = hi.toNat <<< 8 + lo.toNat := (Nat.shiftLeft_add_eq_or_of_lt hlo hi.toNat).symm
    _ = lo.toNat + 256 * hi.toNat := by rw [Nat.shiftLeft_eq]; omega

namespace Machine

/-- The opcodes of the three load forms. -/
abbrev loadOpcodes : List Byte := [Config.hw.opcLdaIm, Config.hw.opcLdaZp, Config.hw.opcLdaZpx]

theorem opcJsr_notMem_loadOpcodes : Config.hw.opcJsr ∉ loadOpcodes := by decide

/-- No load opcode is JSR's. -/
theorem ne_opcJsr_of_mem_loadOpcodes {op : Byte} (h : op ∈ loadOpcodes) : op ≠ Config.hw.opcJsr :=
  ne_of_mem_of_not_mem h opcJsr_notMem_loadOpcodes

/-- An unknown opcode is not JSR's. -/
theorem ne_opcJsr_of_notMem_opcodes {op : Byte} (h : op ∉ Config.hw.opcodes) : op ≠ Config.hw.opcJsr :=
  fun hop => h (by simp [Config.opcodes, hop])

/-- An unknown opcode is no load: the opcodes are the load opcodes and JSR's. -/
theorem notMem_loadOpcodes_of_notMem_opcodes {op : Byte} (h : op ∉ Config.hw.opcodes) : op ∉ loadOpcodes :=
  fun hop => h (List.mem_append_left [Config.hw.opcJsr] hop)

/-- Each load opcode selects one of the three formats with one operand byte. -/
theorem formatOf_of_mem_loadOpcodes {op : Byte} (h : op ∈ loadOpcodes) :
    formatOf Config.hw op = .imm ∨ formatOf Config.hw op = .zp ∨ formatOf Config.hw op = .zpx := by
  obtain ⟨him, hzp, hzpx, -⟩ := formatOf_of_valid hw_valid
  simp only [List.mem_cons, List.not_mem_nil, or_false] at h
  obtain rfl | rfl | rfl := h
  · exact .inl him
  · exact .inr (.inl hzp)
  · exact .inr (.inr hzpx)

theorem operandBytes_of_mem_loadOpcodes {op : Byte} (h : op ∈ loadOpcodes) :
    (formatOf Config.hw op).operandBytes = 1 := by
  obtain hf | hf | hf := formatOf_of_mem_loadOpcodes h <;> rw [hf] <;> rfl

/-- The three kinds of step. -/
theorem step_kinds (s : State) :
    opcodeAt s ∈ loadOpcodes ∨
      (opcodeAt s = Config.hw.opcJsr ∧ formatOf Config.hw (opcodeAt s) = .abs) ∨
      (opcodeAt s ∉ Config.hw.opcodes ∧ formatOf Config.hw (opcodeAt s) = .unk) := by
  obtain ⟨h, -⟩ | ⟨h, -⟩ | ⟨h, -⟩ | h | h := opcode_cases Config.hw (opcodeAt s)
  · exact .inl (by simp [h])
  · exact .inl (by simp [h])
  · exact .inl (by simp [h])
  · exact .inr (.inl h)
  · exact .inr (.inr h)

/-- The state that reads as `s` to every instruction, with all that no instruction reads (R10, R16, R18, R154) taken
from `inert`; `s.withInert s` is `s`. -/
def State.withInert (s inert : State) : State :=
  { inert with pc := s.pc, sp := s.sp, x := s.x, mem := s.mem }

/-- A load step, whichever its form: `PC` moves past two bytes, and the byte loaded, the charge and the bus events do
not depend on the inert part of the state. -/
theorem step_of_load {s : State} (h : opcodeAt s ∈ loadOpcodes) : ∃ (v : Byte) (n : Int) (ev : List BusEvent),
    ∀ inert : State, step (s.withInert inert) = .next
      { s.withInert inert with
        pc := s.pc + 2
        a := v
        flags := inert.flags.afterLoad v
        remaining := inert.remaining - n
        trace := inert.trace ++ ev } := by
  obtain hf | hf | hf := formatOf_of_mem_loadOpcodes h
  · exact ⟨memRead (s.pc + 1) s, 2, [.read s.pc (opcodeAt s), .read (s.pc + 1) (memRead (s.pc + 1) s)],
      fun inert => step_of_imm (s := s.withInert inert) hf⟩
  · exact ⟨memRead (zeroPageAddr (memRead (s.pc + 1) s)) s, 3,
      [.read s.pc (opcodeAt s), .read (s.pc + 1) (memRead (s.pc + 1) s),
        .read (zeroPageAddr (memRead (s.pc + 1) s)) (memRead (zeroPageAddr (memRead (s.pc + 1) s)) s)],
      fun inert => step_of_zp (s := s.withInert inert) hf⟩
  · exact ⟨memRead (zeroPageXAddr (memRead (s.pc + 1) s) s.x) s, 4,
      [.read s.pc (opcodeAt s), .read (s.pc + 1) (memRead (s.pc + 1) s), .internal,
        .read (zeroPageXAddr (memRead (s.pc + 1) s) s.x) (memRead (zeroPageXAddr (memRead (s.pc + 1) s) s.x) s)],
      fun inert => step_of_zpx (s := s.withInert inert) hf⟩

/-- Settles O22: a load writes flags by `Flags.afterLoad`, which keeps the five; the other kinds write none. -/
theorem onlyLoadsWriteFlagsAndOnlyZeroAndNegative : Obligations.OnlyLoadsWriteFlagsAndOnlyZeroAndNegative := by
  intro s
  obtain hload | ⟨-, hf⟩ | ⟨-, hf⟩ := step_kinds s
  · obtain ⟨v, n, ev, hstep⟩ := step_of_load hload
    exact ⟨_, hstep s, rfl, rfl, rfl, rfl, rfl, fun hnot => absurd hload hnot⟩
  · exact ⟨_, step_of_abs hf, rfl, rfl, rfl, rfl, rfl, fun _ => rfl⟩
  · exact ⟨_, step_of_unk hf, rfl, rfl, rfl, rfl, rfl, fun _ => rfl⟩

/-- Settles O23: each kind of step's equation names the registers it writes. -/
theorem onlyLoadsWriteAAndOnlyJsrWritesSp : Obligations.OnlyLoadsWriteAAndOnlyJsrWritesSp := by
  intro s
  obtain hload | ⟨hjsr, hf⟩ | ⟨-, hf⟩ := step_kinds s
  · obtain ⟨v, n, ev, hstep⟩ := step_of_load hload
    exact ⟨_, hstep s, rfl, rfl, rfl, fun hnot => absurd hload hnot, fun _ => rfl⟩
  · exact ⟨_, step_of_abs hf, rfl, rfl, rfl, fun _ => rfl, fun hnot => absurd hjsr hnot⟩
  · exact ⟨_, step_of_unk hf, rfl, rfl, rfl, fun _ => rfl, fun _ => rfl⟩

/-- Settles O24: JSR's target is the assembled word; a load fetches two bytes and an unknown opcode one. -/
theorem onlyJsrChangesPcOtherThanByFetching : Obligations.OnlyJsrChangesPcOtherThanByFetching := by
  intro s
  obtain hload | ⟨hjsr, hf⟩ | ⟨hunk, hf⟩ := step_kinds s
  · obtain ⟨v, n, ev, hstep⟩ := step_of_load hload
    refine ⟨_, hstep s, fun hjsr => absurd hjsr (ne_opcJsr_of_mem_loadOpcodes hload), fun _ => ?_⟩
    rw [operandBytes_of_mem_loadOpcodes hload]
    exact BitVec.toNat_add s.pc 2
  · exact ⟨_, step_of_abs hf, fun _ => wordOf_toNat _ _, fun hnot => absurd hjsr hnot⟩
  · refine ⟨_, step_of_unk hf, fun hjsr => absurd hjsr (ne_opcJsr_of_notMem_opcodes hunk), fun _ => ?_⟩
    rw [hf]
    exact BitVec.toNat_add s.pc 1

/-- Settles O26: for each kind of step, the step of the changed state is the same equation with the same operands, since
opcode, operands and addresses come from `PC`, `SP`, `X` and memory. -/
theorem noInstructionReadsInertState : Obligations.NoInstructionReadsInertState := by
  intro s a y f req rem diag trace
  obtain hload | ⟨hjsr, hf⟩ | ⟨hunk, hf⟩ := step_kinds s
  · obtain ⟨v, n, ev, hstep⟩ := step_of_load hload
    exact ⟨_, _, hstep s, hstep { s with
        a := a, y := y, flags := f, requested := req, remaining := rem, diag := diag, trace := trace },
      rfl, rfl, rfl, rfl, rfl, rfl, by simp only; omega, fun _ => ⟨rfl, rfl, rfl⟩,
      ⟨[], (List.append_nil _).symm, (List.append_nil _).symm⟩, ev, rfl, rfl⟩
  · exact ⟨_, _, step_of_abs hf, step_of_abs hf, rfl, rfl, rfl, rfl, rfl, rfl, by simp only; omega,
      fun hload => absurd hjsr (ne_opcJsr_of_mem_loadOpcodes hload),
      ⟨[], (List.append_nil _).symm, (List.append_nil _).symm⟩, _, rfl, rfl⟩
  · exact ⟨_, _, step_of_unk hf, step_of_unk hf, rfl, rfl, rfl, rfl, rfl, rfl, by simp only; omega,
      fun hload => absurd hload (notMem_loadOpcodes_of_notMem_opcodes hunk), ⟨_, rfl, rfl⟩, _, rfl, rfl⟩

end Machine
end Sys2Proof
end

section
/-! The budget over one step (R18, R99), the values after reset (R23), and the host's access to registers and flags
(R24). -/

namespace Sys2Proof.Machine

/-- What one flag holds after a write of one flag. -/
theorem Flags.get_set (g : Flags) (f f' : Flag) (bit : Bool) :
    (g.set f bit).get f' = if f' = f then bit else g.get f' := by
  cases f <;> cases f' <;> rfl

/-- Settles O42: a step charges 1 to 6 cycles, so from a budget of at least 1 it leaves at least -5. -/
theorem allowedStepKeepsTheBudgetBounds : Obligations.AllowedStepKeepsTheBudgetBounds := by
  intro s t hpos ⟨_, hle⟩ hstep
  obtain ⟨t', ht', hreq, hmost, hleast⟩ := step_charges s
  obtain rfl : t' = t := by simpa [ht'] using hstep
  exact ⟨⟨by omega, by omega⟩, by omega, hreq⟩

/-- Settles O37: the memory lists no cell, so every address reads as the unlisted byte. -/
theorem resetStateHoldsTheSpecsValues : Obligations.ResetStateHoldsTheSpecsValues :=
  ⟨rfl, rfl, rfl, rfl, rfl, rfl, fun _ => rfl⟩

/-- Settles O39: the memory after reset lists no cell. -/
theorem resetStateSatisfiesTheInvariant : Obligations.ResetStateSatisfiesTheInvariant := Memory.wf_nil

/-- Settles O54: each write is its record update; for a flag, `Flags.get_set` says what the seven then hold. -/
theorem hostWriteOfARegisterChangesOnlyIt : Obligations.HostWriteOfARegisterChangesOnlyIt := by
  intro s w v f bit
  refine ⟨rfl, rfl, rfl, rfl, rfl, s.flags.set f bit, rfl, ?_, fun f' hne => ?_⟩
  · rw [Flags.get_set, if_pos rfl]
  · rw [Flags.get_set, if_neg hne]

/-- Settles O56: a read command answers its register or flag beside the unchanged state, by definition. -/
theorem hostReadAnswersAndChangesNothing : Obligations.HostReadAnswersAndChangesNothing :=
  fun _ _ => ⟨rfl, rfl, rfl, rfl, rfl, rfl⟩

end Sys2Proof.Machine
end

section
/-! Memory (R30, R31, R44): a step and a raw write keep it canonical, a write is seen at its own address alone, a JSR's
saved word is what the next fetch reads, and a canonical memory is determined by what it reads as. -/

namespace Sys2Proof.Machine

/-- An address that does not read as an unlisted one is listed, with the byte it reads as. -/
theorem Memory.mem_of_read_ne {m : Memory} {a : Nat} (h : m.read a ≠ unlistedByte) : (a, m.read a) ∈ m := by
  induction m with
  | nil => exact absurd rfl h
  | cons p m ih =>
    obtain ⟨k, w⟩ := p
    by_cases hk : a = k
    · simp [Memory.read, hk]
    · simp only [Memory.read, if_neg hk] at h ⊢
      exact List.mem_cons_of_mem _ (ih h)

/-- In a canonical memory the listed cells are the addresses that do not read as unlisted (R30, log 12). -/
theorem Memory.mem_iff {m : Memory} (h : m.wf) (a : Nat) (v : Byte) :
    (a, v) ∈ m ↔ a < 65536 ∧ v ≠ unlistedByte ∧ m.read a = v := by
  constructor
  · intro hm
    obtain ⟨ha, hv⟩ := h.2 _ hm
    exact ⟨ha, hv, Memory.read_of_mem h hm⟩
  · rintro ⟨-, hv, rfl⟩
    exact Memory.mem_of_read_ne hv

/-- Settles O40: a step has only one answer, and the one `step_keeps_inv` gives is canonical. -/
theorem everyStepKeepsMemoryCanonical : Obligations.EveryStepKeepsMemoryCanonical := by
  intro s t hs hstep
  obtain ⟨t', hstep', hInv⟩ := step_keeps_inv hs
  obtain rfl : t' = t := by simpa [hstep'] using hstep
  exact hInv

/-- Settles O32: the laws of reads after a raw write, at its address and elsewhere; the write is an update of `mem`. -/
theorem rawWriteChangesExactlyOneCell : Obligations.RawWriteChangesExactlyOneCell :=
  fun s addr v hs => ⟨memRead_memWrite_same hs addr v, fun _ hne => memRead_memWrite_other hne v s, rfl⟩

/-- Settles O34: the JSR leaves `PC` at the address of its write, where the two bytes of the saved word read back. -/
theorem nextStepFetchesWhatJsrWrote : Obligations.NextStepFetchesWhatJsrWrote := by
  intro s t hs hop htarget hstep
  obtain ⟨-, -, -, habs⟩ := formatOf_of_valid hw_valid
  have hf : formatOf Config.hw (opcodeAt s) = .abs := by rw [opcodeAt, hop, habs]
  rw [step_of_abs hf, htarget] at hstep
  obtain rfl := Host.Outcome.next.inj hstep
  exact ⟨read_low_of_two_writes hs _ _ _, read_high_of_two_writes hs _ _ _⟩

/-- Settles O36: equal reads list the same cells, and strictly rising lists with the same cells are equal. -/
theorem memoriesThatReadAlikeAreEqual : Obligations.MemoriesThatReadAlikeAreEqual := by
  intro m m' h h' hread
  have : Std.Irrefl fun p q : Host.Cell => p.1 < q.1 := ⟨fun p => Nat.lt_irrefl p.1⟩
  have : Std.Antisymm fun p q : Host.Cell => p.1 < q.1 := ⟨fun p q h1 h2 => absurd h1 (Nat.lt_asymm h2)⟩
  refine h.1.eq_of_mem_iff h'.1 fun ⟨a, v⟩ => ?_
  rw [Memory.mem_iff h, Memory.mem_iff h']
  refine and_congr_right fun ha => ?_
  have hreada : m.read a = m'.read a := by simpa [Nat.mod_eq_of_lt ha] using hread (BitVec.ofNat 16 a)
  rw [hreada]

/-- A host read of a cell answers what the raw port reads there, and changes nothing (R24). -/
theorem Command.run_readCell {s : State} {addr : Word} {b : Byte} (h : memRead addr s = b) :
    (Command.readCell addr).run s = .next (s, .byte b) :=
  h ▸ rfl

/-- Settles O55: the host's write is the raw write and its read the raw read, so the laws of O32 answer both reads. -/
theorem hostWriteOfACellIsReadBack : Obligations.HostWriteOfACellIsReadBack := by
  intro s addr other v hs
  obtain ⟨hsame, hother, -⟩ := rawWriteChangesExactlyOneCell s addr v hs
  exact ⟨(memWrite addr v s).mem, rfl, Command.run_readCell hsame,
    fun hne => Command.run_readCell (hother other hne)⟩

end Sys2Proof.Machine
end

section
/-! Encoding (R50 to R57): what the decoder answers at each format's opcode byte, as an equivalence, so that the same
lemma says what a byte list decodes to and what a decoded instruction was read from. -/

namespace Sys2Proof

/-! ### What the decoder answers -/

theorem Format.operandBytes_le_two (f : Format) : f.operandBytes ≤ 2 := by cases f <;> decide

/-- The decoder takes the operand of the opcode byte's format, and builds that format's instruction. -/
theorem decodeWith_cons_eq_ok_iff {c : Config} {op : Byte} {bytes rest : List Byte} {i : Instr} :
    decodeWith c (op :: bytes) = .ok (i, rest) ↔
      ∃ operand, (formatOf c op).takeOperand bytes = some (operand, rest) ∧ i = (formatOf c op).build op operand := by
  rw [decodeWith]
  cases (formatOf c op).takeOperand bytes with
  | none => simp
  | some p => simp [Prod.ext_iff, and_comm, eq_comm (a := i)]

@[simp] theorem Format.format_build (f : Format) (op : Byte) (operand : Word) : (f.build op operand).format = f := by
  cases f <;> rfl

/-- A decoded instruction has the format its opcode byte selects (R50). -/
theorem format_of_decodeWith_cons {c : Config} {op : Byte} {bytes rest : List Byte} {i : Instr}
    (h : decodeWith c (op :: bytes) = .ok (i, rest)) : i.format = formatOf c op := by
  obtain ⟨operand, -, rfl⟩ := decodeWith_cons_eq_ok_iff.mp h
  exact Format.format_build ..

section
variable {c : Config} {op : Byte} {bytes rest : List Byte} {i : Instr}

/-- At the opcode byte of a one-byte format, the byte after it is the operand, whatever its value (R57). -/
theorem decodeWith_eq_ok_iff_of_one (h : (formatOf c op).operandBytes = 1) :
    decodeWith c (op :: bytes) = .ok (i, rest) ↔
      ∃ b, bytes = b :: rest ∧ i = (formatOf c op).build op (zext16 b) := by
  rw [decodeWith_cons_eq_ok_iff]
  cases bytes with
  | nil => simp [Format.takeOperand, h]
  | cons b bs => simp [Format.takeOperand, h, and_comm]

theorem decodeWith_eq_ok_iff_of_imm (h : formatOf c op = .imm) :
    decodeWith c (op :: bytes) = .ok (i, rest) ↔ ∃ imm, bytes = imm :: rest ∧ i = .ldaIm imm := by
  rw [decodeWith_eq_ok_iff_of_one (by rw [h]; rfl), h]
  simp [Format.build]

theorem decodeWith_eq_ok_iff_of_zp (h : formatOf c op = .zp) :
    decodeWith c (op :: bytes) = .ok (i, rest) ↔ ∃ zp, bytes = zp :: rest ∧ i = .ldaZp zp := by
  rw [decodeWith_eq_ok_iff_of_one (by rw [h]; rfl), h]
  simp [Format.build]

theorem decodeWith_eq_ok_iff_of_zpx (h : formatOf c op = .zpx) :
    decodeWith c (op :: bytes) = .ok (i, rest) ↔ ∃ zp, bytes = zp :: rest ∧ i = .ldaZpx zp := by
  rw [decodeWith_eq_ok_iff_of_one (by rw [h]; rfl), h]
  simp [Format.build]

theorem decodeWith_eq_ok_iff_of_abs (h : formatOf c op = .abs) :
    decodeWith c (op :: bytes) = .ok (i, rest) ↔ ∃ lo hi, bytes = lo :: hi :: rest ∧ i = .jsr (wordOf lo hi) := by
  rw [decodeWith_cons_eq_ok_iff, h]
  match bytes with
  | [] | [_] => simp [Format.takeOperand, Format.operandBytes]
  | lo :: hi :: bs => simp [Format.takeOperand, Format.operandBytes, Format.build, and_comm]

theorem decodeWith_eq_ok_iff_of_unk (h : formatOf c op = .unk) :
    decodeWith c (op :: bytes) = .ok (i, rest) ↔ bytes = rest ∧ i = .unknown op := by
  rw [decodeWith_cons_eq_ok_iff, h]
  simp [Format.takeOperand, Format.operandBytes, Format.build]

end

/-! ### The encoder -/

/-- An `unknown` term is well formed exactly where its byte has no table entry (R56). -/
theorem Instr.wf_unknown_iff {c : Config} {op : Byte} : (Instr.unknown op).wf c = true ↔ op ∉ c.opcodes := by
  simp [Instr.wf]

/-- An encoding has its format's length (R51), at every configuration and also for an ill-formed term. -/
theorem length_encodeWith (c : Config) (i : Instr) : (encodeWith c i).length = i.length := by cases i <;> rfl

/-! ### The obligations -/

/-- Settles O1: a valid table gives each opcode byte its own format, whose operand bytes are those the encoder wrote;
JSR's two bytes assemble to its target again. -/
theorem decodeOfEncodeGivesTheInstructionBack : Obligations.DecodeOfEncodeGivesTheInstructionBack := by
  intro c hc i hwf rest
  obtain ⟨him, hzp, hzpx, habs⟩ := formatOf_of_valid hc
  cases i with
  | ldaIm imm => exact (decodeWith_eq_ok_iff_of_imm him).mpr ⟨imm, rfl, rfl⟩
  | ldaZp zp => exact (decodeWith_eq_ok_iff_of_zp hzp).mpr ⟨zp, rfl, rfl⟩
  | ldaZpx zp => exact (decodeWith_eq_ok_iff_of_zpx hzpx).mpr ⟨zp, rfl, rfl⟩
  | jsr target =>
    exact (decodeWith_eq_ok_iff_of_abs habs).mpr
      ⟨lowByte target, highByte target, rfl, by rw [wordOf_lowByte_highByte]⟩
  | unknown op =>
    have hunk : formatOf c op = .unk := (formatOf_eq_unk_iff c op).mpr (Instr.wf_unknown_iff.mp hwf)
    exact (decodeWith_eq_ok_iff_of_unk hunk).mpr ⟨rfl, rfl⟩

/-- What is decoded is well formed and encodes to the bytes it was read from. The opcode byte is the one its format
stands for, so this needs no valid table. -/
theorem wf_and_encodeWith_of_decodeWith {c : Config} {bytes rest : List Byte} {i : Instr}
    (h : decodeWith c bytes = .ok (i, rest)) : i.wf c = true ∧ encodeWith c i ++ rest = bytes := by
  cases bytes with
  | nil => simp [decodeWith] at h
  | cons op bytes =>
    obtain ⟨rfl, hf⟩ | ⟨rfl, hf⟩ | ⟨rfl, hf⟩ | ⟨rfl, hf⟩ | ⟨hop, hf⟩ := opcode_cases c op
    · obtain ⟨imm, rfl, rfl⟩ := (decodeWith_eq_ok_iff_of_imm hf).mp h
      exact ⟨rfl, rfl⟩
    · obtain ⟨zp, rfl, rfl⟩ := (decodeWith_eq_ok_iff_of_zp hf).mp h
      exact ⟨rfl, rfl⟩
    · obtain ⟨zp, rfl, rfl⟩ := (decodeWith_eq_ok_iff_of_zpx hf).mp h
      exact ⟨rfl, rfl⟩
    · obtain ⟨lo, hi, rfl, rfl⟩ := (decodeWith_eq_ok_iff_of_abs hf).mp h
      exact ⟨rfl, by simp [encodeWith]⟩
    · obtain ⟨rfl, rfl⟩ := (decodeWith_eq_ok_iff_of_unk hf).mp h
      exact ⟨Instr.wf_unknown_iff.mpr hop, rfl⟩

/-- Settles O2: `wf_and_encodeWith_of_decodeWith`, and every encoding has its format's length. -/
theorem encodeOfDecodeGivesTheBytesBack : Obligations.EncodeOfDecodeGivesTheBytesBack := by
  intro c bytes i rest h
  obtain ⟨hwf, hbytes⟩ := wf_and_encodeWith_of_decodeWith h
  exact ⟨hwf, length_encodeWith c i, hbytes⟩

/-- Settles O3: each clause is the round trip of O1 at the instruction it names. -/
theorem everyByteDecodesAndEveryOperandIsLegal : Obligations.EveryByteDecodesAndEveryOperandIsLegal := by
  intro c hc op lo hi rest
  have hround (i : Instr) (hwf : i.wf c = true) : decodeWith c (encodeWith c i ++ rest) = .ok (i, rest) :=
    decodeOfEncodeGivesTheInstructionBack c hc i hwf rest
  refine ⟨hround (.ldaIm lo) rfl, hround (.ldaZp lo) rfl, hround (.ldaZpx lo) rfl, ?_, fun hop => ?_⟩
  · simpa [encodeWith] using hround (.jsr (wordOf lo hi)) rfl
  · exact hround (.unknown op) (Instr.wf_unknown_iff.mpr hop)

/-- Settles O4: both instructions have the format of the opcode byte, and a format has at most two operand bytes. -/
theorem opcodeByteAloneTellsTheLength : Obligations.OpcodeByteAloneTellsTheLength := by
  intro c op bs bs' i i' r r' h h'
  have hformat : i.format = i'.format := (format_of_decodeWith_cons h).trans (format_of_decodeWith_cons h').symm
  have hbound := i.format.operandBytes_le_two
  simp only [Instr.length]
  exact ⟨hformat, by rw [hformat], by omega, by omega⟩

/-- Settles O5: the value of an assembled word, and the two byte reads of it. -/
theorem wordAssemblyIsLittleEndian : Obligations.WordAssemblyIsLittleEndian :=
  fun lo hi => ⟨wordOf_toNat lo hi, lowByte_wordOf lo hi, highByte_wordOf lo hi⟩

end Sys2Proof
end

section
/-! The charging primitives: one cycle for each event on the bus record (R71), and `WriteWord` against `FetchWord`
(R44, R75). -/

namespace Sys2Proof.Machine

/-- The two opcodes whose steps have an internal cycle (R88, R120) are told by their formats. -/
theorem opcode_zpx_or_jsr_iff (op : Byte) : op = Config.hw.opcLdaZpx ∨ op = Config.hw.opcJsr ↔
    formatOf Config.hw op = .zpx ∨ formatOf Config.hw op = .abs := by
  obtain ⟨-, -, hzpx, habs⟩ := formatOf_of_valid hw_valid
  obtain ⟨-, -, ofZpx, ofAbs⟩ := opcode_of_format Config.hw op
  exact ⟨Or.imp (fun h => h ▸ hzpx) (fun h => h ▸ habs), Or.imp ofZpx ofAbs⟩

/-- Settles O29: by the opcode's format, each step's equation lists as many events as it charges cycles, an internal one
among them only for zero page,X and JSR. -/
theorem chargesAreTransactionsPlusInternalCycles : Obligations.ChargesAreTransactionsPlusInternalCycles := by
  intro s
  simp only [opcode_zpx_or_jsr_iff]
  cases hf : formatOf Config.hw (opcodeAt s) with
  | unk => exact ⟨_, _, step_of_unk hf, rfl, sub_sub_cancel _ _, rfl⟩
  | imm => exact ⟨_, _, step_of_imm hf, rfl, sub_sub_cancel _ _, rfl⟩
  | zp => exact ⟨_, _, step_of_zp hf, rfl, sub_sub_cancel _ _, rfl⟩
  | zpx => exact ⟨_, _, step_of_zpx hf, rfl, sub_sub_cancel _ _, rfl⟩
  | abs => exact ⟨_, _, step_of_abs hf, rfl, sub_sub_cancel _ _, rfl⟩

/-- `WriteWord` leaves the low byte at its address. -/
theorem memRead_writeWord_low {s : State} (h : s.Inv) (addr w : Word) :
    memRead addr (writeWord addr w s) = lowByte w := by
  rw [writeWord_eq]
  exact read_low_of_two_writes h addr _ _

/-- `WriteWord` leaves the high byte at the next address, modulo 65,536. -/
theorem memRead_writeWord_high {s : State} (h : s.Inv) (addr w : Word) :
    memRead (addr + 1) (writeWord addr w s) = highByte w := by
  rw [writeWord_eq]
  exact read_high_of_two_writes h addr _ _

/-- Settles O33: the two bytes `FetchWord` reads are the ones `WriteWord` left, and they assemble to the word. -/
theorem writtenWordIsFetchedBack : Obligations.WrittenWordIsFetchedBack := by
  intro s addr w hs
  rw [fetchWord_eq]
  simp only [setPc_pc, memRead_setPc, memRead_writeWord_low hs, memRead_writeWord_high hs, wordOf_lowByte_highByte]

end Sys2Proof.Machine
end

section
/-! Addressing modes (R85 to R92): the effective addresses of the two zero-page modes as numbers, and the bus
transactions of a step, told by the format of its opcode. -/

namespace Sys2Proof.Machine

/-- The effective address of Zero Page, X-indexed, as a number (R90). -/
theorem zeroPageXAddr_toNat (zp x : Byte) : (zeroPageXAddr zp x).toNat = (zp.toNat + x.toNat) % 256 :=
  (zext16_toNat (zp + x)).trans (BitVec.toNat_add zp x)

/-- Settles O31: the 8-bit sum is taken modulo 256 before it is widened, so it stays below 256. -/
theorem indexedAddressWrapsWithinTheZeroPage : Obligations.IndexedAddressWrapsWithinTheZeroPage := by
  refine ⟨fun zp x => ⟨zeroPageXAddr_toNat zp x, ?_⟩, zext16_toNat, by decide⟩
  rw [zeroPageXAddr_toNat]
  exact Nat.le_of_lt_succ (Nat.mod_lt _ (by decide))

/-- The bus events of a step from `s` after the fetch of an opcode of format `f`: the operand bytes, then the accesses
of the resolver and of the meaning (R38, R92, R120). `step_trace` says that these are the step's. -/
def eventsAfterOpcode (f : Format) (s : State) : List BusEvent :=
  let b1 := memRead (s.pc + 1) s
  let b2 := memRead (s.pc + 2) s
  match f with
  | .unk => []
  | .imm => [.read (s.pc + 1) b1]
  | .zp => [.read (s.pc + 1) b1, .read (zeroPageAddr b1) (memRead (zeroPageAddr b1) s)]
  | .zpx => [.read (s.pc + 1) b1, .internal, .read (zeroPageXAddr b1 s.x) (memRead (zeroPageXAddr b1 s.x) s)]
  | .abs => [.read (s.pc + 1) b1, .read (s.pc + 2) b2, .write (stackAddr Config.hw s) (lowByte (s.pc + 2)),
      .write (stackAddr Config.hw s + 1) (highByte (s.pc + 2)), .internal]

/-- A step answers and records its opcode read, then the events of the format that opcode selects. -/
theorem step_trace (s : State) : ∃ t, step s = .next t ∧
    t.trace = s.trace ++ .read s.pc (opcodeAt s) :: eventsAfterOpcode (formatOf Config.hw (opcodeAt s)) s := by
  cases hf : formatOf Config.hw (opcodeAt s) with
  | unk => exact ⟨_, step_of_unk hf, rfl⟩
  | imm => exact ⟨_, step_of_imm hf, rfl⟩
  | zp => exact ⟨_, step_of_zp hf, rfl⟩
  | zpx => exact ⟨_, step_of_zpx hf, rfl⟩
  | abs => exact ⟨_, step_of_abs hf, rfl⟩

/-- Settles O30: each clause's opcode selects its format, and `step_trace` gives the events of that format. -/
theorem busTransactionsOfAStepInOrder : Obligations.BusTransactionsOfAStepInOrder := by
  rintro s _ _ rfl rfl
  obtain ⟨him, hzp, hzpx, habs⟩ := formatOf_of_valid hw_valid
  obtain ⟨t, hstep, htrace⟩ := step_trace s
  refine ⟨t, _, hstep, htrace, fun h => ?_, fun h => ?_, fun h => ?_, fun h => ?_, fun h => ?_⟩
  · rw [opcodeAt, h, him]; rfl
  · rw [opcodeAt, h, hzp]; rfl
  · rw [opcodeAt, h, hzpx]; rfl
  · rw [opcodeAt, h, habs]; rfl
  · rw [(formatOf_eq_unk_iff _ _).mpr h]; rfl

end Sys2Proof.Machine
end

section
/-! Dispatch (R97, R98): a step fetches what the decoder reads at `PC` and runs it, and is the step of the spec's
pseudocode. -/

namespace Sys2Proof.Machine

/-- Fetching operands takes what the decoder takes from the bytes after the opcode; with the opcode fetched before, `PC`
and the budget move by one for each byte (R51, R72). -/
theorem fetchOperand_of_takeOperand {f : Format} {s : State} {operand : Word} {rest : List Byte}
    (h : f.takeOperand [memRead (s.pc + 1) s, memRead (s.pc + 2) s] = some (operand, rest)) :
    ∃ tr, fetchOperand f (fetchByte s).2 =
      (operand,
       { s with
         pc := s.pc + BitVec.ofNat 16 (1 + f.operandBytes)
         remaining := s.remaining - (1 + f.operandBytes : Nat)
         trace := tr }) := by
  cases f <;> obtain ⟨rfl, -⟩ := Prod.mk.inj (Option.some.inj h)
  case unk => exact ⟨_, rfl⟩
  case imm | zp | zpx => exact ⟨_, fetchOperand_one rfl s⟩
  case abs => exact ⟨_, fetchOperand_two s⟩

/-- A step runs what the opcode's format builds of the operand fetched (R97). -/
theorem step_eq_exec (s : State) : step s =
    exec ((formatOf Config.hw (opcodeAt s)).build (opcodeAt s)
        (fetchOperand (formatOf Config.hw (opcodeAt s)) (fetchByte s).2).1)
      (fetchOperand (formatOf Config.hw (opcodeAt s)) (fetchByte s).2).2 := rfl

/-- Settles O14: the decoded instruction is built of the operand its format takes, which is the operand fetched. -/
theorem stepRunsTheDecodedInstruction : Obligations.StepRunsTheDecodedInstruction := by
  intro s i rest h
  obtain ⟨operand, htake, rfl⟩ := decodeWith_cons_eq_ok_iff.mp h
  obtain ⟨tr, hfetch⟩ := fetchOperand_of_takeOperand htake
  refine ⟨tr, ?_⟩
  rw [step_eq_exec, hfetch, Instr.length, Format.format_build]

/-- The operand of a one-byte format is the byte a handler of the pseudocode fetches itself (R86 to R88). -/
theorem fetchOperand_of_one {f : Format} (hf : f.operandBytes = 1) (s : State) :
    fetchOperand f s = (zext16 (fetchByte s).1, (fetchByte s).2) := by
  simp only [fetchOperand, hf]

/-- Settles O15: format by format, the meaning run on the operand fetched before is the handler that fetches it. -/
theorem stepIsTheSpecsPseudocode : Obligations.StepIsTheSpecsPseudocode := by
  intro s
  rw [step_eq_exec, stepWith_eq, dispatchWith_eq]
  cases formatOf Config.hw (opcodeAt s) with
  | unk | abs => rfl
  | imm | zp | zpx =>
    rw [fetchOperand_of_one rfl, Format.build, lowByte_zext16]
    rfl

/-- Settles O52: the two commands run one loop over one step, by O15. -/
theorem executeIsExecuteOverThePseudocode : Obligations.ExecuteIsExecuteOverThePseudocode := by
  intro n s
  have hstep : step = fun t => .next (stepWith Config.hw t) := funext stepIsTheSpecsPseudocode
  rw [execute, executeWith, hstep]

end Sys2Proof.Machine
end

section
/-! The loop of `execute` (R95 to R104): it answers at the first boundary with no budget left, and what holds there. -/

namespace Sys2Proof.Machine

/-- `execute` answers, at a used-up budget, after steps the budget allowed (R96, R104). -/
theorem execute_reaches (n : Int) (s : State) :
    ∃ k t, execute n s = .next t ∧ Reaches k (beginExecute n s) t ∧ t.remaining ≤ 0 :=
  budgetLoop_reaches n.toNat (Int.self_le_toNat n)

/-- The reply of the command is the cycles consumed at the end of its loop (R103). -/
theorem Command.run_execute {n : Int} {s t : State} (h : Machine.execute n s = .next t) :
    (Command.execute n).run s = .next (t, .cyclesConsumed (consumed t)) := by
  simp only [Command.run, h]

/-- Settles O53: `execute` answers by `execute_reaches`, every other command by its definition. -/
theorem everyCommandAnswers : Obligations.EveryCommandAnswers := by
  intro k s
  cases k with
  | execute n =>
    obtain ⟨-, t, ht, -⟩ := execute_reaches n s
    exact ⟨_, _, Command.run_execute ht⟩
  | reset | readPc | readSp | readA | readX | readY | readFlag _ | readCell _
  | writePc _ | writeSp _ | writeA _ | writeX _ | writeY _ | writeFlag _ _ | writeCell _ _ => exact ⟨_, _, rfl⟩

/-- Settles O43: the loop ends at such a boundary, and a run to a used-up budget has only one end. -/
theorem executeIsTheBudgetLoop : Obligations.ExecuteIsTheBudgetLoop := by
  intro n s t r
  obtain ⟨k, u, hu, hreach, hspent⟩ := execute_reaches n s
  rw [Command.run_execute hu]
  constructor
  · intro h
    obtain ⟨rfl, rfl⟩ := Prod.mk.inj (Host.Outcome.next.inj h)
    exact ⟨⟨k, hreach⟩, not_lt.mpr hspent, rfl⟩
  · rintro ⟨⟨j, hj⟩, hspent', rfl⟩
    obtain rfl := reaches_end_unique hreach hspent hj (not_lt.mp hspent')
    rfl

/-- `execute` of a request of 0 or more leaves the request as it is and the budget in its bounds (R18, R99): a step
within an `execute` keeps both. -/
theorem execute_keeps_budgetOk {n : Int} (hn : 0 ≤ n) (s : State) :
    ∃ t, execute n s = .next t ∧ t.BudgetOk ∧ t.requested = n := by
  refine budgetLoop_keeps (P := fun u => u.BudgetOk ∧ u.requested = n) (fun u ⟨hok, hreq⟩ hpos => ?_) n.toNat
    (s := beginExecute n s) ⟨⟨le_trans (by decide) hn, le_rfl⟩, rfl⟩
  obtain ⟨t, hstep, -⟩ := step_charges u
  obtain ⟨hok', -, hreq'⟩ := allowedStepKeepsTheBudgetBounds u t hpos hok hstep
  exact ⟨t, hstep, hok', hreq'.trans hreq⟩

/-- Settles O44: the budget is used up at the end, and its bounds (O42) leave it no less than -5. -/
theorem executeEndsWithinFiveCyclesOfTheRequest : Obligations.ExecuteEndsWithinFiveCyclesOfTheRequest := by
  intro n s hn
  obtain ⟨t, ht, ⟨hlow, -⟩, hreq⟩ := execute_keeps_budgetOk hn s
  obtain ⟨-, t', ht', -, hspent⟩ := execute_reaches n s
  obtain rfl : t' = t := by simpa [ht'] using ht
  refine ⟨t', ht, ?_, ?_, hreq, hlow, hspent⟩ <;> rw [consumed] <;> omega

/-- A run has no more steps than its budget has cycles, since each uses up at least one (R99). -/
theorem steps_le_of_reaches {k : Nat} {s t : State} (h : Reaches k s t) : k ≤ s.remaining.toNat := by
  induction k generalizing s with
  | zero => exact Nat.zero_le _
  | succ k ih =>
    obtain ⟨hpos, u, hstep, hrest⟩ := h
    obtain ⟨u', hstep', -, -, hcharged⟩ := step_charges s
    obtain rfl : u' = u := by simpa [hstep'] using hstep
    have := ih hrest
    omega

/-- Settles O45: the budget at the start is the request. -/
theorem executeRunsAtMostAsManyStepsAsRequested : Obligations.ExecuteRunsAtMostAsManyStepsAsRequested :=
  fun _ _ _ _ h => steps_le_of_reaches h

/-- The cycles consumed so far are one for each bus event added since `start` (R71). -/
def ConsumedSince (start s : State) : Prop := ∃ ev, s.trace = start.trace ++ ev ∧ consumed s = ev.length

/-- A step adds one bus event for each cycle it charges. -/
theorem step_keeps_consumedSince {start s : State} (h : ConsumedSince start s) :
    ∃ t, step s = .next t ∧ ConsumedSince start t := by
  obtain ⟨ev, htrace, hconsumed⟩ := h
  obtain ⟨t, ev', hstep, htrace', hcharged, -⟩ := chargesAreTransactionsPlusInternalCycles s
  obtain ⟨t', hstep', hreq, -⟩ := step_charges s
  obtain rfl : t' = t := by simpa [hstep'] using hstep
  refine ⟨t', hstep, ev ++ ev', by rw [htrace', htrace, List.append_assoc], ?_⟩
  rw [consumed] at hconsumed ⊢
  rw [List.length_append]
  omega

/-- Settles O46: at entry nothing is consumed and no event is added, and every step keeps the two equal. -/
theorem consumedIsTheSumOfAllCharges : Obligations.ConsumedIsTheSumOfAllCharges := by
  intro n s
  have hentry : ConsumedSince s (beginExecute n s) := ⟨[], (List.append_nil _).symm, sub_self n⟩
  obtain ⟨t, ht, ev, htrace, hconsumed⟩ :=
    budgetLoop_keeps (fun _ h _ => step_keeps_consumedSince h) n.toNat hentry
  exact ⟨t, ev, ht, htrace, hconsumed⟩

/-- A request of 0 or less only sets the budget, and consumes nothing. -/
theorem Command.run_execute_of_nonpos {n : Int} (h : n ≤ 0) (s : State) :
    (Command.execute n).run s = .next (beginExecute n s, .cyclesConsumed 0) := by
  have hstop : Machine.execute n s = .next (beginExecute n s) := budgetLoop_stop step _ (not_lt.mpr h)
  have hzero : consumed (beginExecute n s) = 0 := sub_self n
  rw [Command.run_execute hstop, hzero]

/-- Settles O47: `Command.run_execute_of_nonpos` at a request of zero. -/
theorem executeZeroDoesNothing : Obligations.ExecuteZeroDoesNothing := Command.run_execute_of_nonpos le_rfl

/-- Settles O48: `Command.run_execute_of_nonpos` at a request below zero. -/
theorem executeOfANegativeRequestDoesNothing : Obligations.ExecuteOfANegativeRequestDoesNothing :=
  fun _ s hn => Command.run_execute_of_nonpos hn.le s

/-- Settles O50: the loop starts from a state in which both budget fields were overwritten. -/
theorem executeSetsItsBudgetAfresh : Obligations.ExecuteSetsItsBudgetAfresh := by
  intro n q r s
  have hbegin : beginExecute n { s with requested := q, remaining := r } = beginExecute n s := rfl
  rw [execute, hbegin, execute]

end Sys2Proof.Machine
end

section
/-! Load accumulator (R110 to R114): each load form after its operand fetch, what the three share, the whole load steps,
and that a load writes no memory. -/

namespace Sys2Proof.Machine

/-- LDA immediate after its operand fetch (R111). -/
theorem exec_ldaIm (imm : Byte) (s : State) : exec (.ldaIm imm) s = .next
    { s with a := imm, flags := s.flags.afterLoad imm } := rfl

/-- LDA zero page after its operand fetch (R112). -/
theorem exec_ldaZp (zp : Byte) (s : State) : exec (.ldaZp zp) s = .next
    { s with
      a := memRead (zeroPageAddr zp) s
      flags := s.flags.afterLoad (memRead (zeroPageAddr zp) s)
      remaining := s.remaining - 1
      trace := s.trace ++ [.read (zeroPageAddr zp) (memRead (zeroPageAddr zp) s)] } := rfl

/-- LDA zero page, X-indexed after its operand fetch (R113). -/
theorem exec_ldaZpx (zp : Byte) (s : State) : exec (.ldaZpx zp) s = .next
    { s with
      a := memRead (zeroPageXAddr zp s.x) s
      flags := s.flags.afterLoad (memRead (zeroPageXAddr zp s.x) s)
      remaining := s.remaining - 2
      trace := s.trace ++ [.internal, .read (zeroPageXAddr zp s.x) (memRead (zeroPageXAddr zp s.x) s)] } := by
  simp only [exec, execLdaZpx, operandZeroPageX_eq, loadA_eq]

/-- What the three load forms share (R110): one byte goes to `A` and sets the flags by `Flags.afterLoad`. -/
theorem exec_of_load {i : Instr} (hi : i.format = .imm ∨ i.format = .zp ∨ i.format = .zpx) (s : State) :
    ∃ (v : Byte) (rem : Int) (tr : List BusEvent), exec i s = .next
      { s with a := v, flags := s.flags.afterLoad v, remaining := rem, trace := tr } := by
  cases i with
  | ldaIm imm => exact ⟨_, _, _, exec_ldaIm imm s⟩
  | ldaZp zp => exact ⟨_, _, _, exec_ldaZp zp s⟩
  | ldaZpx zp => exact ⟨_, _, _, exec_ldaZpx zp s⟩
  | jsr _ | unknown _ => simp [Instr.format] at hi

/-- Settles O13: a load sets `Z` where `A` is 0 and `N` where `A` is 128 or more, and these exclude each other. -/
theorem loadsSetZeroAndNegativeFromTheAccumulator : Obligations.LoadsSetZeroAndNegativeFromTheAccumulator := by
  intro i s hi
  obtain ⟨v, rem, tr, hexec⟩ := exec_of_load hi s
  rw [Flags.afterLoad_eq] at hexec
  refine ⟨_, hexec, ?_, ?_, ?_, ?_, rfl, rfl, rfl, rfl, rfl⟩
  all_goals
    simp only [decide_eq_true_eq, decide_eq_false_iff_not]
    omega

/-- Settles O8: `exec_ldaIm`, with the flags over numbers. -/
theorem ldaImmediateLoadsItsOperand : Obligations.LdaImmediateLoadsItsOperand := by
  intro imm s
  exact ⟨_, by rw [exec_ldaIm, Flags.afterLoad_eq]⟩

/-- Settles O9: `exec_ldaZp`, with the address and the flags over numbers. -/
theorem ldaZeroPageLoadsTheZeroPageCell : Obligations.LdaZeroPageLoadsTheZeroPageCell := by
  intro zp s
  exact ⟨_, by rw [exec_ldaZp, Flags.afterLoad_eq, zeroPageAddr_eq]⟩

/-- Settles O10: `exec_ldaZpx`, with the wrapped address and the flags over numbers. -/
theorem ldaZeroPageXLoadsTheIndexedCell : Obligations.LdaZeroPageXLoadsTheIndexedCell := by
  intro zp s
  exact ⟨_, by rw [exec_ldaZpx, Flags.afterLoad_eq, zeroPageXAddr_eq]⟩

/-- Settles O17: the opcode selects the immediate format, whose step is `step_of_imm`. -/
theorem stepOnLdaImmediate : Obligations.StepOnLdaImmediate := by
  intro s hop
  obtain ⟨him, -⟩ := formatOf_of_valid hw_valid
  have hf : formatOf Config.hw (opcodeAt s) = .imm := by rw [opcodeAt, hop, him]
  exact ⟨_, by rw [step_of_imm hf, Flags.afterLoad_eq]⟩

/-- Settles O18: the opcode selects the zero-page format, whose step is `step_of_zp`. -/
theorem stepOnLdaZeroPage : Obligations.StepOnLdaZeroPage := by
  rintro s hop v rfl
  obtain ⟨-, hzp, -⟩ := formatOf_of_valid hw_valid
  have hf : formatOf Config.hw (opcodeAt s) = .zp := by rw [opcodeAt, hop, hzp]
  exact ⟨_, by rw [step_of_zp hf, Flags.afterLoad_eq, zeroPageAddr_eq]⟩

/-- Settles O19: the opcode selects the indexed format, whose step is `step_of_zpx`: 4 cycles for any sum. -/
theorem stepOnLdaZeroPageX : Obligations.StepOnLdaZeroPageX := by
  rintro s hop v rfl
  obtain ⟨-, -, hzpx, -⟩ := formatOf_of_valid hw_valid
  have hf : formatOf Config.hw (opcodeAt s) = .zpx := by rw [opcodeAt, hop, hzpx]
  exact ⟨_, by rw [step_of_zpx hf, Flags.afterLoad_eq, zeroPageXAddr_eq]⟩

/-- Settles O25: a load and an unknown opcode leave the memory itself as it was; JSR's two writes are not seen at any
other address. -/
theorem onlyJsrWritesMemory : Obligations.OnlyJsrWritesMemory := by
  intro s
  obtain hload | ⟨hjsr, hf⟩ | ⟨hunk, hf⟩ := step_kinds s
  · obtain ⟨v, n, ev, hstep⟩ := step_of_load hload
    exact ⟨_, hstep s, fun _ => memRead_congr rfl, fun hjsr => absurd hjsr (ne_opcJsr_of_mem_loadOpcodes hload)⟩
  · exact ⟨_, step_of_abs hf, fun hnot => absurd hjsr hnot, fun _ _ hlow hhigh => memRead_two_writes _ _ _ hlow hhigh⟩
  · exact ⟨_, step_of_unk hf, fun _ => memRead_congr rfl, fun hjsr => absurd hjsr (ne_opcJsr_of_notMem_opcodes hunk)⟩

end Sys2Proof.Machine
end

section
/-! Jump to subroutine (R120 to R125): the meaning after the target fetch, and the whole step at every configuration. -/

namespace Sys2Proof.Machine

/-- JSR absolute is the shared operation at this hardware's configuration (R120). -/
theorem exec_jsr (target : Word) (s : State) : exec (.jsr target) s = .next (jsr Config.hw target s) := rfl

/-- The return address, one before the `PC` past a three-byte instruction, is the address of its third byte (R120). -/
theorem add_three_sub_one (p : Word) : p + 3 - 1 = p + 2 := by
  rw [BitVec.sub_eq_add_neg, BitVec.add_assoc]; rfl

/-- A whole JSR step of the pseudocode, at any `STACK_BASE` and `SP_DELTA`. -/
theorem stepWith_of_abs_eq {c : Config} {s : State} (h : formatOf c (opcodeAt s) = .abs) : stepWith c s =
    { s with
      pc := wordOf (memRead (s.pc + 1) s) (memRead (s.pc + 2) s)
      sp := s.sp + c.spDelta
      mem := (s.mem.write (stackAddr c s).toNat (lowByte (s.pc + 2))).write
        (stackAddr c s + 1).toNat (highByte (s.pc + 2))
      remaining := s.remaining - 6
      trace := s.trace ++ [.read s.pc (opcodeAt s), .read (s.pc + 1) (memRead (s.pc + 1) s),
        .read (s.pc + 2) (memRead (s.pc + 2) s), .write (stackAddr c s) (lowByte (s.pc + 2)),
        .write (stackAddr c s + 1) (highByte (s.pc + 2)), .internal] } := by
  have hr : s.remaining - 3 - 3 = s.remaining - 6 := by omega
  simp only [stepWith_of_abs h, fetchOperand_two, jsr_eq, stackAddr, hr, add_three_sub_one, List.append_assoc,
    List.cons_append, List.nil_append]

/-- Settles O20: a valid table gives JSR's opcode its format, whose step is `stepWith_of_abs_eq`; the laws of two writes
answer for the memory. -/
theorem jsrStepAtEveryConfiguration : Obligations.JsrStepAtEveryConfiguration := by
  intro c s hc hs hop
  obtain ⟨-, -, -, habs⟩ := formatOf_of_valid hc
  have hf : formatOf c (opcodeAt s) = .abs := by rw [opcodeAt, hop, habs]
  rw [stepWith_of_abs_eq hf]
  exact ⟨rfl, rfl, rfl, rfl, rfl, rfl, rfl, rfl, rfl, read_low_of_two_writes hs _ _ _,
    read_high_of_two_writes hs _ _ _, fun _ hlow hhigh => memRead_two_writes _ _ _ hlow hhigh⟩

/-- Settles O11: `jsr_eq` lists every field JSR writes; the laws of two writes answer for the memory, and reading the
two bytes back is what needs its canonical form. -/
theorem jsrSavesTheReturnAddressAndJumps : Obligations.JsrSavesTheReturnAddressAndJumps := by
  intro target s
  refine ⟨_, exec_jsr target s, ?_⟩
  rw [jsr_eq]
  exact ⟨rfl, rfl, rfl, rfl, rfl, rfl, rfl, rfl, rfl,
    fun hs => ⟨read_low_of_two_writes hs _ _ _, read_high_of_two_writes hs _ _ _⟩,
    fun _ hlow hhigh => memRead_two_writes _ _ _ hlow hhigh⟩

end Sys2Proof.Machine
end

section
/-! The unknown opcode (R130 to R132): the handler, the whole step, and `execute` over memory that holds nothing else. -/

namespace Sys2Proof.Machine

/-- The unknown-opcode handler reports its byte (R130). -/
theorem exec_unknown (op : Byte) (s : State) : exec (.unknown op) s = .next (report op s) := rfl

/-- Settles O12: the handler is the report alone, and the report appends to the sink. -/
theorem unknownOpcodeOnlyReports : Obligations.UnknownOpcodeOnlyReports := by
  intro op s
  rw [exec_unknown, report]

/-- Settles O21: a byte without a table entry selects the format without operands, whose step is `step_of_unk`. -/
theorem stepOnUnknownOpcode : Obligations.StepOnUnknownOpcode := by
  intro s hop
  exact ⟨_, step_of_unk ((formatOf_eq_unk_iff _ _).mpr hop)⟩

/-- Where every cell holds one unknown opcode, a budget of `n` cycles is `n` steps over it, one event each: no step
changes memory, so the next one finds the same byte wherever `PC` wraps to. -/
theorem budgetLoop_of_forall_memRead_eq {b : Byte} (hb : b ∉ Config.hw.opcodes) (n : Nat) {s : State}
    (hmem : ∀ addr, memRead addr s = b) (hrem : s.remaining = n) : ∃ tr, budgetLoop step n s = .next
      { s with
        pc := s.pc + BitVec.ofNat 16 n
        remaining := 0
        diag := s.diag ++ List.replicate n b
        trace := tr } := by
  induction n generalizing s with
  | zero =>
    have hspent : s.remaining = 0 := hrem
    refine ⟨s.trace, ?_⟩
    rw [budgetLoop_stop step 0 (by omega), BitVec.add_zero, List.replicate_zero, List.append_nil, ← hspent]
  | succ n ih =>
    obtain ⟨tr, hstep⟩ := stepOnUnknownOpcode s (by rwa [hmem])
    rw [hmem] at hstep
    have hpc : s.pc + BitVec.ofNat 16 (n + 1) = s.pc + 1 + BitVec.ofNat 16 n := by
      rw [Nat.add_comm n 1, BitVec.ofNat_add, ← BitVec.add_assoc]; rfl
    have hdiag : s.diag ++ List.replicate (n + 1) b = s.diag ++ [b] ++ List.replicate n b := by
      rw [List.replicate_succ, List.append_cons]
    have hleft : s.remaining - 1 = n := by omega
    rw [budgetLoop_go n (by omega) hstep, hpc, hdiag]
    exact ih hmem hleft

/-- Settles O51: every cell of reset memory reads 0x00, which is no opcode, and the budget at entry is the request. -/
theorem executeOnResetMemoryReportsZeros : Obligations.ExecuteOnResetMemoryReportsZeros := by
  intro n s
  have hzero : (0x00#8) ∉ Config.hw.opcodes := by decide
  exact budgetLoop_of_forall_memRead_eq hzero n (s := beginExecute n (resetCommand s)) (fun _ => rfl) rfl

end Sys2Proof.Machine
end

section
/-! No faults and no refusals (R140, R156), the one event the machine emits (R154), and the shortest run, one step
(R152). -/

namespace Sys2Proof.Machine

/-- Every instruction of the type has a meaning that completes. -/
theorem exec_answers (i : Instr) (s : State) : ∃ t, exec i s = .next t := by
  cases i with
  | ldaIm imm => exact ⟨_, exec_ldaIm imm s⟩
  | ldaZp zp => exact ⟨_, exec_ldaZp zp s⟩
  | ldaZpx zp => exact ⟨_, exec_ldaZpx zp s⟩
  | jsr target => exact ⟨_, exec_jsr target s⟩
  | unknown op => exact ⟨_, exec_unknown op s⟩

/-- Settles O16: the fetch cannot fail, so a step answers because the instruction it fetched does. -/
theorem noInstructionAndNoStepEverStops : Obligations.NoInstructionAndNoStepEverStops := by
  refine ⟨exec_answers, fun s => ?_⟩
  rw [step_eq_exec]
  exact exec_answers _ _

/-- Whatever the sink holds, a step appends the same events to it, the opcode byte where that is unknown and none
otherwise, and answers the same state beside it. -/
theorem step_appends_to_diag (s : State) : ∃ (t : State) (ev : List Byte), step s = .next t ∧
    t.diag = s.diag ++ ev ∧
    (opcodeAt s ∉ Config.hw.opcodes → ev = [opcodeAt s]) ∧ (opcodeAt s ∈ Config.hw.opcodes → ev = []) ∧
    ∀ d, step { s with diag := d } = .next { t with diag := d ++ ev } := by
  obtain hload | ⟨hjsr, hf⟩ | ⟨hunk, hf⟩ := step_kinds s
  · obtain ⟨v, n, ev, hstep⟩ := step_of_load hload
    refine ⟨_, [], hstep s, (List.append_nil _).symm,
      fun hnot => absurd hload (notMem_loadOpcodes_of_notMem_opcodes hnot), fun _ => rfl, fun d => ?_⟩
    rw [List.append_nil]
    exact hstep { s with diag := d }
  · refine ⟨_, [], step_of_abs hf, (List.append_nil _).symm,
      fun hnot => absurd hjsr (ne_opcJsr_of_notMem_opcodes hnot), fun _ => rfl, fun d => ?_⟩
    rw [List.append_nil]
    exact step_of_abs hf
  · exact ⟨_, _, step_of_unk hf, rfl, fun _ => rfl, fun hmem => absurd hmem hunk, fun _ => step_of_unk hf⟩

/-- Settles O27: `step_appends_to_diag` says which events a step appends, and that it appends them to any sink; a step
has only one answer. Reset keeps the sink by definition. -/
theorem diagnosticsEventsAreTheUnknownOpcodesFetched : Obligations.DiagnosticsEventsAreTheUnknownOpcodesFetched := by
  refine ⟨fun s => ?_, fun _ => rfl, fun s t d hstep => ?_⟩
  · obtain ⟨t, ev, hstep, hdiag, hunk, hknown, -⟩ := step_appends_to_diag s
    exact ⟨t, hstep, fun h => by rw [hdiag, hunk h], fun h => by rw [hdiag, hknown h, List.append_nil]⟩
  · obtain ⟨t', ev, hstep', hdiag, -, -, hsink⟩ := step_appends_to_diag s
    obtain rfl : t' = t := by simpa [hstep'] using hstep
    exact ⟨ev, hdiag, hsink d⟩

/-- Settles O49: a budget of 1 allows the first step, and the loop, whose fuel is 1 too, ends where that step does. -/
theorem executeOneRunsExactlyOneStep : Obligations.ExecuteOneRunsExactlyOneStep := by
  intro s
  obtain ⟨t, hstep, -⟩ := step_charges (beginExecute 1 s)
  calc execute 1 s
      = budgetLoop step 0 t := budgetLoop_go 0 Int.one_pos hstep
    _ = .next t := rfl
    _ = step (beginExecute 1 s) := hstep.symm

end Sys2Proof.Machine
end

section
/-! Hazards (R172): what a step charges, at every format and for any operands. -/

namespace Sys2Proof

/-- The base cycle cost of a format: no two table entries share a format, so it stands for the entry's own (R55). -/
def Format.baseCycles : Format → Nat
  | .unk => 1
  | .imm => 2
  | .zp => 3
  | .zpx => 4
  | .abs => 6

/-- The base cycle cost of an opcode is that of the format it selects, since each of the four table entries has its
format's cost. -/
theorem baseCycles_eq (c : Config) (op : Byte) : baseCycles c op = (formatOf c op).baseCycles := by
  rw [baseCycles, formatOf]
  cases hrow : lookupRow c op with
  | none => rfl
  | some r =>
    have hmem : r ∈ opcodeTable c := List.mem_of_find?_eq_some hrow
    simp only [opcodeTable, List.mem_cons, List.not_mem_nil, or_false] at hmem
    obtain rfl | rfl | rfl | rfl := hmem <;> rfl

namespace Machine

/-- A step answers and charges the base cycle cost of its opcode, once. -/
theorem step_charges_baseCycles (s : State) : ∃ t, step s = .next t ∧
    s.remaining - t.remaining = baseCycles Config.hw (opcodeAt s) := by
  rw [baseCycles_eq]
  cases hf : formatOf Config.hw (opcodeAt s) with
  | unk => exact ⟨_, step_of_unk hf, sub_sub_cancel _ _⟩
  | imm => exact ⟨_, step_of_imm hf, sub_sub_cancel _ _⟩
  | zp => exact ⟨_, step_of_zp hf, sub_sub_cancel _ _⟩
  | zpx => exact ⟨_, step_of_zpx hf, sub_sub_cancel _ _⟩
  | abs => exact ⟨_, step_of_abs hf, sub_sub_cancel _ _⟩

/-- Settles O28: `step_charges_baseCycles`, and each clause's opcode selects the format with that cost. -/
theorem stepChargesTheBaseCycleCost : Obligations.StepChargesTheBaseCycleCost := by
  intro s
  obtain ⟨him, hzp, hzpx, habs⟩ := formatOf_of_valid hw_valid
  obtain ⟨t, hstep, hcost⟩ := step_charges_baseCycles s
  have hcharged {op : Byte} (f : Format) (hop : opcodeAt s = op) (hf : formatOf Config.hw op = f) :
      s.remaining - t.remaining = f.baseCycles := by
    rw [hcost, baseCycles_eq, hop, hf]
  exact ⟨t, hstep, hcost, fun h => hcharged .imm h him, fun h => hcharged .zp h hzp, fun h => hcharged .zpx h hzpx,
    fun h => hcharged .abs h habs, fun h => hcharged .unk rfl ((formatOf_eq_unk_iff _ _).mpr h)⟩

end Machine
end Sys2Proof
end

section
/-! The reset command (R160, R161), nested JSRs (R122), and the encodings at this hardware's opcode bytes (R53, R56). -/

namespace Sys2Proof.Machine

/-- Settles O38: outside the two streams `resetCommand` gives the fields of `State.reset`, whose values O37 states; it
reads nothing of the state before but the streams, which it keeps. -/
theorem resetCommandIsTotalAndIdempotent : Obligations.ResetCommandIsTotalAndIdempotent :=
  ⟨fun _ => resetStateHoldsTheSpecsValues, fun _ _ => rfl, fun _ => rfl⟩

/-- A JSR step keeps memory canonical, at every configuration: its two writes do. -/
theorem stepWith_keeps_inv_of_abs {c : Config} {s : State} (hs : s.Inv) (hf : formatOf c (opcodeAt s) = .abs) :
    (stepWith c s).Inv := by
  rw [stepWith_of_abs_eq hf]
  exact two_writes_wf hs _ _ _

/-- Where `SP` does not wrap, adding 2 to it adds 2 to the address it widens to. -/
theorem zext16_add_two {b : Byte} (h : b.toNat ≤ 0xFD) : zext16 (b + 2) = zext16 b + 2 := by
  apply BitVec.eq_of_toNat_eq
  simp only [zext16_toNat, BitVec.toNat_add, BitVec.ofNat_eq_ofNat, BitVec.toNat_ofNat]
  omega

/-- The two cells of a word and the two after them are four different cells, modulo 65,536. -/
theorem next_word_disjoint (a : Word) : a ≠ a + 2 ∧ a ≠ a + 2 + 1 ∧ a + 1 ≠ a + 2 ∧ a + 1 ≠ a + 2 + 1 := by
  refine ⟨?_, ?_, ?_, ?_⟩ <;> bv_omega

/-- Settles O35: the second JSR writes two cells above the first, by O20 for each of the two steps, so it leaves the
first word as it is. -/
theorem nestedJsrsSaveSideBySideAtSpDeltaTwo : Obligations.NestedJsrsSaveSideBySideAtSpDeltaTwo := by
  intro c s hc hdelta hs hsp hop hop'
  obtain ⟨-, -, -, habs⟩ := formatOf_of_valid hc
  have hf : formatOf c (opcodeAt s) = .abs := by rw [opcodeAt, hop, habs]
  obtain ⟨-, hsp', -, -, -, -, -, -, -, hlow, hhigh, -⟩ := jsrStepAtEveryConfiguration c s hc hs hop
  obtain ⟨-, -, -, -, -, -, -, -, -, hlow', hhigh', hkeep⟩ :=
    jsrStepAtEveryConfiguration c (stepWith c s) hc (stepWith_keeps_inv_of_abs hs hf) hop'
  have haddr : c.stackBase + zext16 (stepWith c s).sp = c.stackBase + zext16 s.sp + 2 := by
    rw [hsp', hdelta, zext16_add_two hsp, BitVec.add_assoc]
  rw [haddr] at hlow' hhigh' hkeep
  obtain ⟨h02, h03, h12, h13⟩ := next_word_disjoint (c.stackBase + zext16 s.sp)
  refine ⟨(hkeep _ h02 h03).trans hlow, (hkeep _ h12 h13).trans hhigh, hlow', ?_⟩
  rwa [BitVec.add_assoc _ 2 1] at hhigh'

end Sys2Proof.Machine

namespace Sys2Proof

/-- Settles O6: the opcode bytes are the ones of `Config.hw`, so O3 answers for each word; JSR's two operand bytes
assemble to 0x1234, and neither 0x01 nor 0x00 is an opcode. -/
theorem writtenOutWordsDecode : Obligations.WrittenOutWordsDecode := by
  have hdecode := everyByteDecodesAndEveryOperandIsLegal Config.hw hw_valid
  obtain ⟨him, hzp, -⟩ := hdecode 0x01#8 0x42#8 0x00#8 []
  obtain ⟨-, -, hzpx, -⟩ := hdecode 0x01#8 0x80#8 0x00#8 []
  obtain ⟨-, -, -, hjsr, hunknown⟩ := hdecode 0x01#8 0x34#8 0x12#8 []
  obtain ⟨-, -, -, -, hunknown'⟩ := hdecode 0x00#8 0x00#8 0x00#8 [0x20#8]
  have htarget : wordOf 0x34#8 0x12#8 = 0x1234#16 := by decide
  rw [htarget] at hjsr
  exact ⟨him, hzp, hzpx, hjsr, hunknown (by decide), hunknown' (by decide)⟩

/-- Settles O7: an unknown opcode is a byte that is none of the four opcodes, here listed in another order. -/
theorem unknownOpcodesAreTheOther252Bytes : Obligations.UnknownOpcodesAreTheOther252Bytes := by
  have hperm : Config.hw.opcodes.Perm [0x20#8, 0xA5#8, 0xA9#8, 0xB5#8] := by decide
  exact ⟨hw_valid, fun b => (formatOf_eq_unk_iff _ b).trans (not_congr hperm.mem_iff)⟩

end Sys2Proof
end
